-- ==== Sys2Proof/Word.lean ====
section
/-! DEFINITION. The data words of the bitbuf core (spec/00_scope.md R6, R7; spec/10_state.md R33). -/

namespace Sys2Proof

/-- One byte of a buffer or of a byte-sequence operand. -/
abbrev Byte := BitVec 8

/-- A 32-bit word: the command word CMD (R70) and the datapath word (`WORD_BITS`, R6). -/
abbrev Word := BitVec 32

/-- A 64-bit value: the operand A, the result RES and the cursor registers (R6, R33). -/
abbrev Word64 := BitVec 64

end Sys2Proof
end

