-- ==== Sys2Proof/Syntax.lean ====
section
/-! DEFINITION. The commands of the bitbuf core: one constructor per row of spec/opcode_table.json
(spec/30_encoding.md R76). The operands A and IN are not part of the command word: a command reads
them from the interface registers of State (R70, R73, R74). -/

namespace Sys2Proof

/-- A decoded command word. `w` is the field width WID (R72), a count of bits from 0 to 127. -/
inductive Instr where
  /-- `R.NEW in`, OP = 0x01 (42_cursor_control.md R200). -/
  | rNew
  /-- `R.RDBITS w`, OP = 0x02 (40_codec.md R111). -/
  | rRdbits (w : Nat)
  /-- `R.RDSBITS w`, OP = 0x03 (40_codec.md R112). -/
  | rRdsbits (w : Nat)
  /-- `R.RDU8`, OP = 0x04 (41_typed_access.md R140). -/
  | rRdu8
  /-- `R.RDU16`, OP = 0x05 (41_typed_access.md R141). -/
  | rRdu16
  /-- `R.RDU32`, OP = 0x06 (41_typed_access.md R142). -/
  | rRdu32
  /-- `R.RDU64`, OP = 0x07 (41_typed_access.md R143). -/
  | rRdu64
  /-- `R.RDI8`, OP = 0x08 (41_typed_access.md R144). -/
  | rRdi8
  /-- `R.RDI16`, OP = 0x09 (41_typed_access.md R145). -/
  | rRdi16
  /-- `R.RDI32`, OP = 0x0A (41_typed_access.md R146). -/
  | rRdi32
  /-- `R.RDI64`, OP = 0x0B (41_typed_access.md R147). -/
  | rRdi64
  /-- `R.RDF32`, OP = 0x0C (41_typed_access.md R148). -/
  | rRdf32
  /-- `R.RDF64`, OP = 0x0D (41_typed_access.md R149). -/
  | rRdf64
  /-- `R.RDBYTES a`, OP = 0x10 (41_typed_access.md R150). -/
  | rRdbytes
  /-- `R.RDRUN a`, OP = 0x11 (41_typed_access.md R151). -/
  | rRdrun
  /-- `R.RDSTR`, OP = 0x12 (41_typed_access.md R152). -/
  | rRdstr
  /-- `R.RDSTRM a`, OP = 0x13 (41_typed_access.md R153). -/
  | rRdstrm
  /-- `R.SEEK a`, OP = 0x18 (42_cursor_control.md R202). -/
  | rSeek
  /-- `R.RESET`, OP = 0x19 (42_cursor_control.md R204). -/
  | rReset
  /-- `R.BITSREAD`, OP = 0x1A (42_cursor_control.md R206). -/
  | rBitsread
  /-- `R.DATA`, OP = 0x1B (42_cursor_control.md R209). -/
  | rData
  /-- `W.NEW a`, OP = 0x21 (42_cursor_control.md R201). -/
  | wNew
  /-- `W.WRBITS w, a`, OP = 0x22 (40_codec.md R113). -/
  | wWrbits (w : Nat)
  /-- `W.WRSBITS w, a`, OP = 0x23 (40_codec.md R114). -/
  | wWrsbits (w : Nat)
  /-- `W.WRU8 a`, OP = 0x24 (41_typed_access.md R160). -/
  | wWru8
  /-- `W.WRU16 a`, OP = 0x25 (41_typed_access.md R161). -/
  | wWru16
  /-- `W.WRU32 a`, OP = 0x26 (41_typed_access.md R162). -/
  | wWru32
  /-- `W.WRU64 a`, OP = 0x27 (41_typed_access.md R163). -/
  | wWru64
  /-- `W.WRI8 a`, OP = 0x28 (41_typed_access.md R164). -/
  | wWri8
  /-- `W.WRI16 a`, OP = 0x29 (41_typed_access.md R165). -/
  | wWri16
  /-- `W.WRI32 a`, OP = 0x2A (41_typed_access.md R166). -/
  | wWri32
  /-- `W.WRI64 a`, OP = 0x2B (41_typed_access.md R167). -/
  | wWri64
  /-- `W.WRF32 a`, OP = 0x2C (41_typed_access.md R168). -/
  | wWrf32
  /-- `W.WRF64 a`, OP = 0x2D (41_typed_access.md R169). -/
  | wWrf64
  /-- `W.WRBYTES in`, OP = 0x30 (41_typed_access.md R170). -/
  | wWrbytes
  /-- `W.WRRUN a, in`, OP = 0x31 (41_typed_access.md R171). -/
  | wWrrun
  /-- `W.WRSTR in`, OP = 0x32 (41_typed_access.md R172). -/
  | wWrstr
  /-- `W.SEEK a`, OP = 0x38 (42_cursor_control.md R203). -/
  | wSeek
  /-- `W.RESET`, OP = 0x39 (42_cursor_control.md R205). -/
  | wReset
  /-- `W.BITSWRITTEN`, OP = 0x3A (42_cursor_control.md R207). -/
  | wBitswritten
  /-- `W.BYTESWRITTEN`, OP = 0x3B (42_cursor_control.md R208). -/
  | wByteswritten
  /-- `W.DATA`, OP = 0x3C (42_cursor_control.md R210). -/
  | wData
  deriving DecidableEq, Repr

end Sys2Proof
end

