-- ==== Sys2Proof/WellFormed.lean ====
section
/-! DEFINITION. When a command is one that a command word can carry (spec/30_encoding.md R71, R72). -/

namespace Sys2Proof

/-- The width of a command that takes one is a value of the 7-bit field WID (R72). A width of 0 or of
65 to 127 is well formed: it is "a decodable command that fails with UnsupportedWidth". -/
def Instr.wf : Instr → Bool
  | .rRdbits w | .rRdsbits w | .wWrbits w | .wWrsbits w => decide (w < 128)
  | .rNew | .rRdu8 | .rRdu16 | .rRdu32 | .rRdu64 | .rRdi8 | .rRdi16
  | .rRdi32 | .rRdi64 | .rRdf32 | .rRdf64 | .rRdbytes | .rRdrun | .rRdstr
  | .rRdstrm | .rSeek | .rReset | .rBitsread | .rData | .wNew | .wWru8
  | .wWru16 | .wWru32 | .wWru64 | .wWri8 | .wWri16 | .wWri32 | .wWri64
  | .wWrf32 | .wWrf64 | .wWrbytes | .wWrrun | .wWrstr | .wSeek | .wReset
  | .wBitswritten | .wByteswritten | .wData => true

end Sys2Proof
end

