-- ==== Sys2Proof/Decode.lean ====
section
/-! DEFINITION. Decoding and encoding of the command word (spec/30_encoding.md R70 to R81). -/

namespace Sys2Proof

/-- OP = CMD[7:0] (R71). -/
def cmdOp (cmd : Word) : BitVec 8 := cmd.extractLsb' 0 8

/-- WID = CMD[14:8] (R71). -/
def cmdWid (cmd : Word) : BitVec 7 := cmd.extractLsb' 8 7

/-- RSV = CMD[31:15] (R71). -/
def cmdRsv (cmd : Word) : BitVec 17 := cmd.extractLsb' 15 17

/-- Why a command word is illegal (R77 to R79). Each one ends the command with IllegalCommand. -/
inductive DecodeError where
  /-- OP is not in the table of R76 (R77). -/
  | unassignedOp
  /-- RSV ≠ 0 (R78). -/
  | reservedBits
  /-- WID ≠ 0 on a command that takes no width (R79). -/
  | widthNotUsed
  deriving DecidableEq, Repr

/-- A command that takes no width is legal only with WID = 0 (R79). -/
def withoutWidth (i : Instr) (wid : Nat) : Except DecodeError Instr :=
  if wid = 0 then .ok i else .error .widthNotUsed

/-- The opcode table of R76: the command that OP names, with WID as its width where it takes one. -/
def decodeOp (op wid : Nat) : Except DecodeError Instr :=
  match op with
  | 0x01 => withoutWidth .rNew wid
  | 0x02 => .ok (.rRdbits wid)
  | 0x03 => .ok (.rRdsbits wid)
  | 0x04 => withoutWidth .rRdu8 wid
  | 0x05 => withoutWidth .rRdu16 wid
  | 0x06 => withoutWidth .rRdu32 wid
  | 0x07 => withoutWidth .rRdu64 wid
  | 0x08 => withoutWidth .rRdi8 wid
  | 0x09 => withoutWidth .rRdi16 wid
  | 0x0A => withoutWidth .rRdi32 wid
  | 0x0B => withoutWidth .rRdi64 wid
  | 0x0C => withoutWidth .rRdf32 wid
  | 0x0D => withoutWidth .rRdf64 wid
  | 0x10 => withoutWidth .rRdbytes wid
  | 0x11 => withoutWidth .rRdrun wid
  | 0x12 => withoutWidth .rRdstr wid
  | 0x13 => withoutWidth .rRdstrm wid
  | 0x18 => withoutWidth .rSeek wid
  | 0x19 => withoutWidth .rReset wid
  | 0x1A => withoutWidth .rBitsread wid
  | 0x1B => withoutWidth .rData wid
  | 0x21 => withoutWidth .wNew wid
  | 0x22 => .ok (.wWrbits wid)
  | 0x23 => .ok (.wWrsbits wid)
  | 0x24 => withoutWidth .wWru8 wid
  | 0x25 => withoutWidth .wWru16 wid
  | 0x26 => withoutWidth .wWru32 wid
  | 0x27 => withoutWidth .wWru64 wid
  | 0x28 => withoutWidth .wWri8 wid
  | 0x29 => withoutWidth .wWri16 wid
  | 0x2A => withoutWidth .wWri32 wid
  | 0x2B => withoutWidth .wWri64 wid
  | 0x2C => withoutWidth .wWrf32 wid
  | 0x2D => withoutWidth .wWrf64 wid
  | 0x30 => withoutWidth .wWrbytes wid
  | 0x31 => withoutWidth .wWrrun wid
  | 0x32 => withoutWidth .wWrstr wid
  | 0x38 => withoutWidth .wSeek wid
  | 0x39 => withoutWidth .wReset wid
  | 0x3A => withoutWidth .wBitswritten wid
  | 0x3B => withoutWidth .wByteswritten wid
  | 0x3C => withoutWidth .wData wid
  | _ => .error .unassignedOp

/-- Decoding is total on the 32 bits of CMD and reads nothing else (R70, R81). -/
def decode (cmd : Word) : Except DecodeError Instr :=
  if cmdRsv cmd = 0 then decodeOp (cmdOp cmd).toNat (cmdWid cmd).toNat else .error .reservedBits

/-- The OP value of a command (R76). -/
def opcode : Instr → BitVec 8
  | .rNew => 0x01
  | .rRdbits _ => 0x02
  | .rRdsbits _ => 0x03
  | .rRdu8 => 0x04
  | .rRdu16 => 0x05
  | .rRdu32 => 0x06
  | .rRdu64 => 0x07
  | .rRdi8 => 0x08
  | .rRdi16 => 0x09
  | .rRdi32 => 0x0A
  | .rRdi64 => 0x0B
  | .rRdf32 => 0x0C
  | .rRdf64 => 0x0D
  | .rRdbytes => 0x10
  | .rRdrun => 0x11
  | .rRdstr => 0x12
  | .rRdstrm => 0x13
  | .rSeek => 0x18
  | .rReset => 0x19
  | .rBitsread => 0x1A
  | .rData => 0x1B
  | .wNew => 0x21
  | .wWrbits _ => 0x22
  | .wWrsbits _ => 0x23
  | .wWru8 => 0x24
  | .wWru16 => 0x25
  | .wWru32 => 0x26
  | .wWru64 => 0x27
  | .wWri8 => 0x28
  | .wWri16 => 0x29
  | .wWri32 => 0x2A
  | .wWri64 => 0x2B
  | .wWrf32 => 0x2C
  | .wWrf64 => 0x2D
  | .wWrbytes => 0x30
  | .wWrrun => 0x31
  | .wWrstr => 0x32
  | .wSeek => 0x38
  | .wReset => 0x39
  | .wBitswritten => 0x3A
  | .wByteswritten => 0x3B
  | .wData => 0x3C

/-- The WID value of a command: its width where it takes one, else 0 (R71). -/
def widthField : Instr → Nat
  | .rRdbits w | .rRdsbits w | .wWrbits w | .wWrsbits w => w
  | .rNew | .rRdu8 | .rRdu16 | .rRdu32 | .rRdu64 | .rRdi8 | .rRdi16
  | .rRdi32 | .rRdi64 | .rRdf32 | .rRdf64 | .rRdbytes | .rRdrun | .rRdstr
  | .rRdstrm | .rSeek | .rReset | .rBitsread | .rData | .wNew | .wWru8
  | .wWru16 | .wWru32 | .wWru64 | .wWri8 | .wWri16 | .wWri32 | .wWri64
  | .wWrf32 | .wWrf64 | .wWrbytes | .wWrrun | .wWrstr | .wSeek | .wReset
  | .wBitswritten | .wByteswritten | .wData => 0

/-- The command word of a command: RSV = 0 above WID above OP (R71). -/
def encode (i : Instr) : Word :=
  (0 : BitVec 17) ++ BitVec.ofNat 7 (widthField i) ++ opcode i

/-- The command the decoder reads from a table row's word: a row has 32 bits and there is no longer
command (R70), and the bits above `nbits` are 0. The word stands on the CMD port as it is, since the
block stores no command in memory (R30, R53). -/
def decodeTableWord (nbits w : Nat) : Option Instr :=
  if nbits ≤ 32 then
    match decode (BitVec.ofNat 32 (w % 2 ^ nbits)) with
    | .ok i => some i
    | .error _ => none
  else none

/-- The mnemonic of a command, as R76 spells it. -/
def mnemonic : Instr → String
  | .rNew => "R.NEW"
  | .rRdbits _ => "R.RDBITS"
  | .rRdsbits _ => "R.RDSBITS"
  | .rRdu8 => "R.RDU8"
  | .rRdu16 => "R.RDU16"
  | .rRdu32 => "R.RDU32"
  | .rRdu64 => "R.RDU64"
  | .rRdi8 => "R.RDI8"
  | .rRdi16 => "R.RDI16"
  | .rRdi32 => "R.RDI32"
  | .rRdi64 => "R.RDI64"
  | .rRdf32 => "R.RDF32"
  | .rRdf64 => "R.RDF64"
  | .rRdbytes => "R.RDBYTES"
  | .rRdrun => "R.RDRUN"
  | .rRdstr => "R.RDSTR"
  | .rRdstrm => "R.RDSTRM"
  | .rSeek => "R.SEEK"
  | .rReset => "R.RESET"
  | .rBitsread => "R.BITSREAD"
  | .rData => "R.DATA"
  | .wNew => "W.NEW"
  | .wWrbits _ => "W.WRBITS"
  | .wWrsbits _ => "W.WRSBITS"
  | .wWru8 => "W.WRU8"
  | .wWru16 => "W.WRU16"
  | .wWru32 => "W.WRU32"
  | .wWru64 => "W.WRU64"
  | .wWri8 => "W.WRI8"
  | .wWri16 => "W.WRI16"
  | .wWri32 => "W.WRI32"
  | .wWri64 => "W.WRI64"
  | .wWrf32 => "W.WRF32"
  | .wWrf64 => "W.WRF64"
  | .wWrbytes => "W.WRBYTES"
  | .wWrrun => "W.WRRUN"
  | .wWrstr => "W.WRSTR"
  | .wSeek => "W.SEEK"
  | .wReset => "W.RESET"
  | .wBitswritten => "W.BITSWRITTEN"
  | .wByteswritten => "W.BYTESWRITTEN"
  | .wData => "W.DATA"

/-- The pseudo-instruction `R.RDBYTE` is `R.RDU8` (R83). -/
def pseudoRdbyte : Instr := .rRdu8

/-- The pseudo-instruction `W.WRBYTE a` is `W.WRU8 a` (R83). -/
def pseudoWrbyte : Instr := .wWru8

end Sys2Proof
end

