-- ==== Sys2Proof/Config.lean ====
section
/-! DEFINITION. The implementation parameters of spec/00_scope.md R6: the ones the spec fixes are
constants here; the three OPEN ones are a record that State carries, so that a statement over every
state holds for every value of them (log 3). -/

namespace Sys2Proof.Config

/-- `WORD_BITS` (R6): the width of the datapath word. -/
def wordBits : Nat := 32

/-- `MAX_PRIM_WIDTH` (R6): the largest width one primitive field command accepts. -/
def maxPrimWidth : Nat := 64

/-- `WPAD_BYTES` (R6): the bytes W.BUF holds beyond W.CAP. -/
def wpadBytes : Nat := 4

/-- `WPAD` (R6): the bits that W.TOT adds to 8 × W.CAP. -/
def wpad : Nat := 32

end Sys2Proof.Config

namespace Sys2Proof

/-- The OPEN parameters of R6. The two buffer limits are below 2^61, as R6 requires, by their width.
`inMaxBytes` has 64 bits, which keeps every overflow inside the 68-bit OVF (DEDUCED from D26; log 3). -/
structure Limits where
  /-- `RBUF_MAX_BYTES`: the largest reader buffer in bytes. -/
  rbufMaxBytes : BitVec 61
  /-- `WBUF_MAX_BYTES`: the largest writer storage, W.CAP + 4, in bytes. -/
  wbufMaxBytes : BitVec 61
  /-- `IN_MAX_BYTES`: the longest byte sequence the IN operand carries. -/
  inMaxBytes : BitVec 64
  deriving DecidableEq, Repr

/-- The limits that State.reset names: 2^61 - 1 bytes each, the value D25 gives for unbounded storage.
DESIGN CHOICE, unsafe (log 3): the spec leaves them OPEN, and no statement rests on these values. -/
def Limits.unbounded : Limits where
  rbufMaxBytes := 0x1FFFFFFFFFFFFFFF
  wbufMaxBytes := 0x1FFFFFFFFFFFFFFF
  inMaxBytes := 0x1FFFFFFFFFFFFFFF

end Sys2Proof
end

