-- ==== Sys2Proof/Machine/Bits.lean ====
section
/-! DEFINITION. Arithmetic, extension and byte order as spec/00_scope.md R8 to R10 define them, and the
writer's sign re-normalisation (spec/40_codec.md R109). -/

namespace Sys2Proof.Machine

/-- `ceil8(n)` is ⌈n / 8⌉ (R8). -/
def ceil8 (n : Nat) : Nat := (n + 7) / 8

/-- `mask(n)` is 2^n − 1 (R8). -/
def mask (n : Nat) : Nat := 2 ^ n - 1

/-- `zext_64(v)` of a field value v of at most 64 bits (R9). -/
def zext64 (v : Nat) : Word64 := BitVec.ofNat 64 v

/-- `sext_64(v)` of an n-bit field value v (R9, R110). -/
def sext64 (n v : Nat) : Word64 := (BitVec.ofNat n v).signExtend 64

/-- `LE(s)` is Σ s[k] · 256^k (R10). -/
def leNat : List Byte → Nat
  | [] => 0
  | b :: s => b.toNat + 256 * leNat s

/-- `LEbytes_k(v)` is the k-byte sequence whose byte j is v[8j+7:8j] (R10). -/
def leBytes : Nat → Nat → List Byte
  | 0, _ => []
  | k + 1, v => BitVec.ofNat 8 v :: leBytes k (v / 256)

/-- `SignNorm(s, n)` (R109): for n < 32 the bits above n are cleared and then filled with bit n − 1. -/
def signNorm (s : Word64) (n : Nat) : Word64 :=
  if 32 ≤ n then s
  else
    let t := s &&& BitVec.ofNat 64 (mask n)
    if t.getLsbD (n - 1) then t ||| (BitVec.ofNat 64 (mask 64) ^^^ BitVec.ofNat 64 (mask n)) else t

/-- The width test of a primitive field command: 1 to MAX_PRIM_WIDTH (R72, R242). -/
def supportedWidth (n : Nat) : Bool := decide (1 ≤ n ∧ n ≤ Config.maxPrimWidth)

end Sys2Proof.Machine
end

