-- ==== Sys2Proof/Machine/State.lean ====
section
/-! DEFINITION. The architectural state of the bitbuf core (spec/10_state.md), the host's events, the
error kinds (spec/60_exceptions.md R240), the reasons a step can stop, and block reset's state (R35). -/

namespace Sys2Proof.Machine

/-- The contents of a buffer: (byte index, byte) pairs, indices strictly rising, no byte 0 listed. An
index that is not listed holds 0: W.NEW fills W.BUF with zeros (R201), and a zero byte of R.NEW's IN is
kept unlisted (log 5). -/
abbrev Memory := List Host.Cell

/-- The reader unit (R20). -/
structure Reader where
  /-- R.BUF, `len` bytes (R20, R21). -/
  buf : Memory
  /-- R.LEN, at most 61 bits (R20, R32). -/
  len : BitVec 61
  /-- R.TOT, the logical capacity in bits (R22). -/
  tot : Word64
  /-- R.CUR, the cursor (R23). -/
  cur : Word64
  deriving DecidableEq, Repr

/-- The writer unit (R24). -/
structure Writer where
  /-- W.CAP, the requested capacity in bytes, at most 61 bits (R24, R32). -/
  cap : BitVec 61
  /-- W.BUF, `cap` + 4 bytes, the pad included (R24, R61). -/
  buf : Memory
  /-- W.TOT, the logical capacity in bits (R25). -/
  tot : Word64
  /-- W.CUR, the cursor (R26). -/
  cur : Word64
  /-- W.BW, the high-water mark `bitsWritten` (R27). -/
  bw : Word64
  /-- W.POISON, the exhaustion flag (R28). -/
  poison : Bool
  deriving DecidableEq, Repr

/-- One transaction of the host: the command word with its two operands (R70, R84). -/
structure Transaction where
  cmd : Word
  a : Word64
  inp : List Byte
  deriving DecidableEq, Repr

/-- What the host does next at the command port: present a command (R30), or assert block reset, which
"happens between commands" (R280). -/
inductive HostEvent where
  | command (t : Transaction)
  | blockReset
  deriving DecidableEq, Repr

/-- The state of the block: both units (R32), the interface registers (R33), and two fields of the
model's own, `pending` (log 1) and `limits` (log 3). -/
structure State where
  /-- The reader unit R. -/
  reader : Reader
  /-- The writer unit W. -/
  writer : Writer
  /-- CMD, the command word the host presents (R33). -/
  cmd : Word
  /-- A, the scalar operand (R33, R73). -/
  a : Word64
  /-- IN, the byte operand (R33, R74). -/
  inp : List Byte
  /-- ST, the status code of the response (R33, R240). -/
  st : BitVec 3
  /-- OVF, the overflow in bits when ST = 1, else 0 (R33, R75). -/
  ovf : BitVec 68
  /-- RES, the scalar result (R33, R75). -/
  res : Word64
  /-- OUT, the byte result (R33, R75). -/
  out : List Byte
  /-- Whether the output registers hold a response: "No response is pending after reset" (R282). -/
  responded : Bool
  /-- The host's events that the block has not yet taken, first to last (R30, R84; log 1). -/
  pending : List HostEvent
  /-- The OPEN parameters, which no step changes (R6; log 3). -/
  limits : Limits
  deriving DecidableEq, Repr

/-- The two units of the block (R3). -/
inductive PortUnit where
  | reader
  | writer
  deriving DecidableEq, Repr

/-- The error kinds (R240). None stops the machine: each ends its command with a response. -/
inductive ErrorKind where
  /-- The range exceeds the unit's capacity by `overflow` bits (R241). -/
  | outOfBounds (overflow : Nat)
  /-- A primitive field command with width 0 or above 64 (R242). -/
  | unsupportedWidth
  /-- An illegal command word, or a length mismatch of W.WRRUN (R243). -/
  | illegalCommand
  /-- R.NEW or W.NEW beyond its limit (R244). -/
  | resourceLimit
  deriving DecidableEq, Repr

/-- The faults of the machine. There are none: the block "has no traps" (spec/60_exceptions.md, R250),
and every error is a response after which the block "accepts the next command like any other". -/
inductive Fault where
  deriving DecidableEq, Repr

/-- Why a step has no meaning. -/
inductive Refusal where
  /-- An instruction whose meaning is not written yet. Raised by no arm of `exec`: every command has its
  meaning. Safe. -/
  | notModelled (mnemonic : String)
  /-- The host presented an IN longer than IN_MAX_BYTES, which it "must not" do (R74, I12 `refuse`).
  Raised by `step` before the command is decoded. Safe: no claim about the command can be proved from it
  (log 4). -/
  | inTooLong
  deriving DecidableEq, Repr

/-- The reader that R.NEW makes from an empty IN (R35, R200). -/
def Reader.empty : Reader where
  buf := []
  len := 0
  tot := 0
  cur := 0

/-- The writer that W.NEW makes with A = 0: zeros(4) and W.TOT = 32 (R35, R201). -/
def Writer.empty : Writer where
  cap := 0
  buf := []
  tot := 32
  cur := 0
  bw := 0
  poison := false

/-- The state after block reset (R35, R280) with the given limits and no command presented. The
interface registers "have no reset value" (R282): 0 and [] are the model's, DESIGN CHOICE (log 2). -/
def State.resetWith (l : Limits) : State where
  reader := Reader.empty
  writer := Writer.empty
  cmd := 0
  a := 0
  inp := []
  st := 0
  ovf := 0
  res := 0
  out := []
  responded := false
  pending := []
  limits := l

/-- The machine right after reset (R35), with the limits of log 3. -/
def State.reset : State := State.resetWith Limits.unbounded

end Sys2Proof.Machine
end

