-- ==== Sys2Proof/Machine/Flags.lean ====
section
/-! DEFINITION. The status values of the bitbuf core. It has no condition codes (spec/10_state.md R31):
what other machines keep in flags is here the status code ST, the overflow OVF, the high-water mark W.BW
and the exhaustion flag W.POISON. -/

namespace Sys2Proof.Machine

/-- The code of an error kind in ST (R240). 0 is OK; 5 to 7 are never returned. -/
def statusCode : ErrorKind → BitVec 3
  | .outOfBounds _ => 1
  | .unsupportedWidth => 2
  | .illegalCommand => 3
  | .resourceLimit => 4

/-- The overflow an error records: OutOfBounds its amount, every other kind 0 (R75, R241 to R244). -/
def overflowCode : ErrorKind → BitVec 68
  | .outOfBounds n => BitVec.ofNat 68 n
  | .unsupportedWidth => 0
  | .illegalCommand => 0
  | .resourceLimit => 0

/-- Whether an error of the writer unit pins and poisons the writer: OutOfBounds and UnsupportedWidth do
(R246), IllegalCommand and ResourceLimit do not (R247). -/
def poisons : ErrorKind → Bool
  | .outOfBounds _ => true
  | .unsupportedWidth => true
  | .illegalCommand => false
  | .resourceLimit => false

/-- W.BW after a successful write of n bits: it moves only when the write starts at W.CUR = W.BW, tested
at entry (R104, R107). -/
def highWater (cur bw : Word64) (n : Nat) : Word64 :=
  if cur = bw then BitVec.ofNat 64 (cur.toNat + n) else bw

end Sys2Proof.Machine
end

