-- ==== Sys2Proof/Machine/Ops.lean ====
section
/-! DEFINITION. The named operations over the two buffers and the response registers: bit access and
MemRead, MemWrite (spec/00_scope.md R11, R12; spec/20_memory.md R51, R52, R60), the field and string
procedures (spec/40_codec.md R100, R104; spec/41_typed_access.md R134), ending a command and error entry
(R13; spec/60_exceptions.md R245 to R247), and the host's events. -/

namespace Sys2Proof.Machine

/-! ## Buffers -/

/-- The byte at an index. An index that is not listed holds 0 (log 5). -/
def Memory.read : Memory → Nat → Byte
  | [], _ => 0
  | (k, b) :: rest, i => if k = i then b else Memory.read rest i

/-- Storing one byte keeps the canonical form: writing 0 removes the entry (log 5). -/
def Memory.write : Memory → Nat → Byte → Memory
  | [], i, v => if v = 0 then [] else [(i, v)]
  | (k, b) :: rest, i, v =>
    if i < k then
      if v = 0 then (k, b) :: rest else (i, v) :: (k, b) :: rest
    else if i = k then
      if v = 0 then rest else (i, v) :: rest
    else (k, b) :: Memory.write rest i v

/-- The canonical form: indices strictly rising, no entry equal to what an unlisted index holds. -/
def Memory.wf : Memory → Bool
  | [] => true
  | (k, b) :: rest => decide (b ≠ 0) && rest.all (fun c => decide (k < c.1)) && Memory.wf rest

/-- Every listed index is below n: the buffer holds n bytes. -/
def Memory.within (m : Memory) (n : Nat) : Bool := m.all (fun c => decide (c.1 < n))

/-- A buffer holding the bytes `s` from index k on. -/
def Memory.ofBytesFrom : Nat → List Byte → Memory
  | _, [] => []
  | k, b :: s => if b = 0 then Memory.ofBytesFrom (k + 1) s else (k, b) :: Memory.ofBytesFrom (k + 1) s

/-- A buffer that is a copy of `s` (R200). -/
def Memory.ofBytes (s : List Byte) : Memory := Memory.ofBytesFrom 0 s

/-- The n bytes from index k on. -/
def Memory.bytes (m : Memory) : Nat → Nat → List Byte
  | _, 0 => []
  | k, n + 1 => m.read k :: Memory.bytes m (k + 1) n

/-- `BIT(U, j)`: bit (j mod 8) of byte j div 8 (R11, R51). -/
def Memory.bit (m : Memory) (j : Nat) : Bool := (m.read (j / 8)).getLsbD (j % 8)

/-- Set BIT(W, j) to v. -/
def Memory.setBit (m : Memory) (j : Nat) (v : Bool) : Memory :=
  let b := m.read (j / 8)
  let one : Byte := 1#8 <<< (j % 8)
  m.write (j / 8) (if v then b ||| one else b &&& ~~~one)

/-- `MemRead(U, pos, n)` is Σ BIT(U, pos + i) · 2^i over i < n (R12, R52). -/
def memRead (m : Memory) : Nat → Nat → Nat
  | _, 0 => 0
  | pos, n + 1 => (m.bit pos).toNat + 2 * memRead m (pos + 1) n

/-- `MemWrite(W, pos, n, v)` sets BIT(W, pos + i) to v[i] for every i < n and no other bit (R12, R60). -/
def memWrite (m : Memory) : Nat → Nat → Nat → Memory
  | _, 0, _ => m
  | pos, n + 1, v => memWrite (m.setBit pos (v.testBit 0)) (pos + 1) n (v / 2)

/-! ## Ending a command -/

/-- `respond(RES = res, OUT = out)`: ST = 0 and OVF = 0 (R13, R75). -/
def respond (res : Word64) (out : List Byte) (s : State) : State :=
  { s with st := 0, ovf := 0, res := res, out := out, responded := true }

/-- The response of a failed command: the error's code, its overflow, RES = 0 and OUT = [] (R13, R75). -/
def respondError (e : ErrorKind) (s : State) : State :=
  { s with st := statusCode e, ovf := overflowCode e, res := 0, out := [], responded := true }

/-- A writer error pins the cursor and the high-water mark to W.TOT and poisons the writer (R246). -/
def Writer.pin (w : Writer) : Writer := { w with cur := w.tot, bw := w.tot, poison := true }

/-- What an error changes in the unit that raised it: a reader error nothing (R245), a writer error the
pin where the kind poisons (R246, R247). -/
def errorEntry (u : PortUnit) (e : ErrorKind) (s : State) : State :=
  match u with
  | .reader => s
  | .writer => if poisons e then { s with writer := s.writer.pin } else s

/-- `raise E(info)` (R13): the error's effect on the unit, then its response. There is no handler and no
return from it (R250, R251): the block takes the next command like any other. -/
def raise (u : PortUnit) (e : ErrorKind) (s : State) : State := respondError e (errorEntry u e s)

/-! ## The reader's procedures -/

/-- `ReadField(n)` (R100): one exact bounds check (R101), then the field, then the advance. -/
def readField (n : Nat) (s : State) : Except ErrorKind (Nat × State) :=
  let r := s.reader
  if r.tot.toNat < r.cur.toNat + n then
    .error (.outOfBounds (r.cur.toNat + n - r.tot.toNat))
  else
    .ok (memRead r.buf r.cur.toNat n,
      { s with reader := { r with cur := BitVec.ofNat 64 (r.cur.toNat + n) } })

/-- A read command whose result goes to RES. -/
def readRes (n : Nat) (ext : Nat → Word64) (s : State) : State :=
  match readField n s with
  | .error e => raise .reader e s
  | .ok (v, t) => respond (ext v) [] t

/-- A read command whose result goes to OUT, as k bytes (R150, R151). -/
def readOut (n k : Nat) (s : State) : State :=
  match readField n s with
  | .error e => raise .reader e s
  | .ok (v, t) => respond 0 (leBytes k v) t

/-- Whether k bytes are below the limit of a string read; `none` is the spec's ∞ (R134). -/
def belowLimit (limit : Option Nat) (k : Nat) : Bool :=
  match limit with
  | none => true
  | some l => decide (k < l)

/-- The loop of `ReadString(limit)` (R134) with its `k`, R.CUR and `out`. The first argument bounds the
number of turns: a turn needs 8 more bits below `tot`, so tot / 8 turns are never exceeded (R287, log 12). -/
def readStringLoop (m : Memory) (tot : Nat) (limit : Option Nat) :
    Nat → Nat → Nat → List Byte → List Byte × Nat
  | 0, _, cur, out => (out, cur)
  | turns + 1, k, cur, out =>
    if belowLimit limit k ∧ cur + 8 ≤ tot then
      let b := BitVec.ofNat 8 (memRead m cur 8)
      if b = 0 then (out, cur + 8)
      else readStringLoop m tot limit turns (k + 1) (cur + 8) (out ++ [b])
    else (out, cur)

/-- `ReadString(limit)`: the bytes read and the state with R.CUR moved. It never raises an error (R134). -/
def readString (limit : Option Nat) (s : State) : List Byte × State :=
  let r := s.reader
  let x := readStringLoop r.buf r.tot.toNat limit (r.tot.toNat / 8) 0 r.cur.toNat []
  (x.1, { s with reader := { r with cur := BitVec.ofNat 64 x.2 } })

/-- A string read command: its bytes go to OUT (R152, R153). -/
def readStr (limit : Option Nat) (s : State) : State :=
  let x := readString limit s
  respond 0 x.1 x.2

/-! ## The writer's procedures -/

/-- `WriteField(n, v)` (R104): one check before any bit is written (R105), then the bits, the high-water
mark (R107) and the advance. Bits of v at or above n are not stored (R108). -/
def writeField (n v : Nat) (s : State) : Except ErrorKind State :=
  let w := s.writer
  if w.poison ∨ w.tot.toNat < w.cur.toNat + n then
    .error (.outOfBounds (w.cur.toNat + n - w.tot.toNat))
  else
    .ok { s with writer :=
      { w with
        buf := memWrite w.buf w.cur.toNat n v
        bw := highWater w.cur w.bw n
        cur := BitVec.ofNat 64 (w.cur.toNat + n) } }

/-- A write command of n bits. -/
def writeData (n v : Nat) (s : State) : State :=
  match writeField n v s with
  | .error e => raise .writer e s
  | .ok t => respond 0 [] t

/-! ## The command port -/

/-- The host presents one transaction: CMD, A and IN take its values, and the event is taken (R33, R70). -/
def accept (t : Transaction) (rest : List HostEvent) (s : State) : State :=
  { s with cmd := t.cmd, a := t.a, inp := t.inp, pending := rest }

/-- A transaction the interface carries: IN is no longer than IN_MAX_BYTES (R74, I12). -/
def portAccepts (l : Limits) (t : Transaction) : Bool := decide (t.inp.length ≤ l.inMaxBytes.toNat)

/-- Block reset (R280): every state element takes its value of R35, and no response is pending (R282).
The host's later events and the limits stay (log 9). -/
def blockReset (rest : List HostEvent) (s : State) : State :=
  { State.resetWith s.limits with pending := rest }

/-- The host issues these events after the ones it has already issued (R30, R84). -/
def State.issue (s : State) (es : List HostEvent) : State := { s with pending := s.pending ++ es }

/-- The host presents a command word next, with A = 0 and IN = [] (R84: an omitted A is 0, an omitted IN
is []). The bits above `nbits` are 0 (log 1). -/
def presentWord (s : State) (nbits w : Nat) : State :=
  { s with
    pending :=
      .command { cmd := BitVec.ofNat 32 (w % 2 ^ nbits), a := 0, inp := [] } :: s.pending }

end Sys2Proof.Machine
end

