-- ==== Sys2Proof/Machine/Operands.lean ====
section
/-! DEFINITION. The operands of the commands: how A and IN are read (spec/30_encoding.md R73, R74), and
the columns of the opcode table that say which command uses which (R76). -/

namespace Sys2Proof.Machine

/-! ## Operand forms -/

/-- The value operand A[n−1:0] of an n-bit unsigned or float write (R73). -/
def valueA (n : Nat) (s : State) : Nat := s.a.toNat % 2 ^ n

/-- The value operand of an n-bit signed write: SignNorm(A, n)[n−1:0] (R109, R114). -/
def signedValueA (n : Nat) (s : State) : Nat := (signNorm s.a n).toNat % 2 ^ n

/-- A count, maximum, position or capacity: "the unsigned 64-bit value of A" (R73). -/
def countA (s : State) : Nat := s.a.toNat

/-- The number of bytes of IN (R74). -/
def lengthIn (s : State) : Nat := s.inp.length

/-! ## The columns of the opcode table -/

/-- The unit a command names: "OP[5] = 0 selects the reader unit and OP[5] = 1 selects the writer unit"
(R76). -/
def unitOf : Instr → PortUnit
  | .rNew | .rRdbits _ | .rRdsbits _ | .rRdu8 | .rRdu16 | .rRdu32
  | .rRdu64 | .rRdi8 | .rRdi16 | .rRdi32 | .rRdi64 | .rRdf32
  | .rRdf64 | .rRdbytes | .rRdrun | .rRdstr | .rRdstrm | .rSeek
  | .rReset | .rBitsread | .rData => .reader
  | .wNew | .wWrbits _ | .wWrsbits _ | .wWru8 | .wWru16 | .wWru32
  | .wWru64 | .wWri8 | .wWri16 | .wWri32 | .wWri64 | .wWrf32
  | .wWrf64 | .wWrbytes | .wWrrun | .wWrstr | .wSeek | .wReset
  | .wBitswritten | .wByteswritten | .wData => .writer

/-- Whether the command reads the operand A (the A column of R76). Every other command ignores A (R73). -/
def usesA : Instr → Bool
  | .rRdbytes | .rRdrun | .rRdstrm | .rSeek | .wNew | .wWrbits _
  | .wWrsbits _ | .wWru8 | .wWru16 | .wWru32 | .wWru64 | .wWri8
  | .wWri16 | .wWri32 | .wWri64 | .wWrf32 | .wWrf64 | .wWrrun
  | .wSeek => true
  | .rNew | .rRdbits _ | .rRdsbits _ | .rRdu8 | .rRdu16 | .rRdu32
  | .rRdu64 | .rRdi8 | .rRdi16 | .rRdi32 | .rRdi64 | .rRdf32
  | .rRdf64 | .rRdstr | .rReset | .rBitsread | .rData | .wWrbytes
  | .wWrstr | .wReset | .wBitswritten | .wByteswritten | .wData => false

/-- Whether the command reads the operand IN (the IN column of R76). Every other command ignores IN (R74). -/
def usesIn : Instr → Bool
  | .rNew | .wWrbytes | .wWrrun | .wWrstr => true
  | .rRdbits _ | .rRdsbits _ | .rRdu8 | .rRdu16 | .rRdu32 | .rRdu64
  | .rRdi8 | .rRdi16 | .rRdi32 | .rRdi64 | .rRdf32 | .rRdf64
  | .rRdbytes | .rRdrun | .rRdstr | .rRdstrm | .rSeek | .rReset
  | .rBitsread | .rData | .wNew | .wWrbits _ | .wWrsbits _ | .wWru8
  | .wWru16 | .wWru32 | .wWru64 | .wWri8 | .wWri16 | .wWri32
  | .wWri64 | .wWrf32 | .wWrf64 | .wSeek | .wReset | .wBitswritten
  | .wByteswritten | .wData => false

/-- Where a command's result goes (the result column of R76). -/
inductive ResultForm where
  | nothing
  | res
  | out
  deriving DecidableEq, Repr

/-- The result column of R76. -/
def resultForm : Instr → ResultForm
  | .rNew | .rSeek | .rReset | .wNew | .wWrbits _ | .wWrsbits _
  | .wWru8 | .wWru16 | .wWru32 | .wWru64 | .wWri8 | .wWri16
  | .wWri32 | .wWri64 | .wWrf32 | .wWrf64 | .wWrbytes | .wWrrun
  | .wWrstr | .wSeek | .wReset => .nothing
  | .rRdbits _ | .rRdsbits _ | .rRdu8 | .rRdu16 | .rRdu32 | .rRdu64
  | .rRdi8 | .rRdi16 | .rRdi32 | .rRdi64 | .rRdf32 | .rRdf64
  | .rBitsread | .wBitswritten | .wByteswritten => .res
  | .rRdbytes | .rRdrun | .rRdstr | .rRdstrm | .rData | .wData => .out

/-- The access width of a data command in bits (R57), `none` for the commands that move no field of a
fixed number of bits: a primitive with an unsupported width, the string reads (8 bits per byte consumed),
a W.WRRUN whose IN has the wrong length, and the cursor commands. -/
def accessBits (i : Instr) (s : State) : Option Nat :=
  match i with
  | .rRdbits w | .rRdsbits w | .wWrbits w | .wWrsbits w => if supportedWidth w then some w else none
  | .rRdu8 | .rRdi8 | .wWru8 | .wWri8 => some 8
  | .rRdu16 | .rRdi16 | .wWru16 | .wWri16 => some 16
  | .rRdu32 | .rRdi32 | .rRdf32 | .wWru32 | .wWri32 | .wWrf32 => some 32
  | .rRdu64 | .rRdi64 | .rRdf64 | .wWru64 | .wWri64 | .wWrf64 => some 64
  | .rRdbytes => some (8 * countA s)
  | .rRdrun => some (countA s)
  | .wWrbytes => some (8 * lengthIn s)
  | .wWrrun => if lengthIn s = ceil8 (countA s) then some (countA s) else none
  | .wWrstr => some (8 * (lengthIn s + 1))
  | .rNew | .rRdstr | .rRdstrm | .rSeek | .rReset | .rBitsread | .rData | .wNew | .wSeek | .wReset
  | .wBitswritten | .wByteswritten | .wData => none

end Sys2Proof.Machine
end

