-- ==== Sys2Proof/Machine/Cursor.lean ====
section
/-! DEFINITION. Construction, cursor control and queries (spec/42_cursor_control.md R200 to R210). -/

namespace Sys2Proof.Machine

/-- The reader that R.NEW makes over the bytes of IN (R200). -/
def Reader.construct (bytes : List Byte) : Reader where
  buf := Memory.ofBytes bytes
  len := BitVec.ofNat 61 bytes.length
  tot := BitVec.ofNat 64 (8 * bytes.length)
  cur := 0

/-- The writer that W.NEW makes with a capacity of `capacity` bytes: all zeros, W.TOT = 8 × capacity + 32
(R201). -/
def Writer.construct (capacity : Nat) : Writer where
  cap := BitVec.ofNat 61 capacity
  buf := []
  tot := BitVec.ofNat 64 (8 * capacity + Config.wpad)
  cur := 0
  bw := 0
  poison := false

/-- The writer's cursor moves to bit `pos`, but not while W.POISON is 1 (R203, R205). -/
def Writer.moveTo (w : Writer) (pos : Word64) : Writer :=
  if w.poison then w else { w with cur := pos }

/-- `R.NEW in` (R200): construct the reader over a copy of IN, or ResourceLimit. -/
def execRNew (s : State) : Host.Outcome State Fault Refusal :=
  .next
    (if s.limits.rbufMaxBytes.toNat < lengthIn s then raise .reader .resourceLimit s
    else respond 0 [] { s with reader := Reader.construct s.inp })

/-- `W.NEW a` (R201): construct the writer with a capacity of A bytes, or ResourceLimit. -/
def execWNew (s : State) : Host.Outcome State Fault Refusal :=
  .next
    (if s.limits.wbufMaxBytes.toNat < countA s + Config.wpadBytes then raise .writer .resourceLimit s
    else respond 0 [] { s with writer := Writer.construct (countA s) })

/-- `R.SEEK a` (R202): move the reader's cursor to bit A; no clamp and no check. -/
def execRSeek (s : State) : Host.Outcome State Fault Refusal :=
  .next (respond 0 [] { s with reader := { s.reader with cur := s.a } })

/-- `W.SEEK a` (R203): move the writer's cursor to bit min(A, W.TOT), unless poisoned. -/
def execWSeek (s : State) : Host.Outcome State Fault Refusal :=
  .next
    (respond 0 []
      { s with
        writer := s.writer.moveTo (BitVec.ofNat 64 (min (countA s) s.writer.tot.toNat)) })

/-- `R.RESET` (R204): move the reader's cursor to bit 0. -/
def execRReset (s : State) : Host.Outcome State Fault Refusal :=
  .next (respond 0 [] { s with reader := { s.reader with cur := 0 } })

/-- `W.RESET` (R205): move the writer's cursor to bit 0, unless poisoned; W.BW is kept. -/
def execWReset (s : State) : Host.Outcome State Fault Refusal :=
  .next (respond 0 [] { s with writer := s.writer.moveTo 0 })

/-- `R.BITSREAD` (R206): report R.CUR. -/
def execRBitsread (s : State) : Host.Outcome State Fault Refusal :=
  .next (respond s.reader.cur [] s)

/-- `W.BITSWRITTEN` (R207): report W.BW. -/
def execWBitswritten (s : State) : Host.Outcome State Fault Refusal :=
  .next (respond s.writer.bw [] s)

/-- `W.BYTESWRITTEN` (R208): report ceil8(W.BW). -/
def execWByteswritten (s : State) : Host.Outcome State Fault Refusal :=
  .next (respond (BitVec.ofNat 64 (ceil8 s.writer.bw.toNat)) [] s)

/-- `R.DATA` (R209): return all of R.BUF. -/
def execRData (s : State) : Host.Outcome State Fault Refusal :=
  .next (respond 0 (s.reader.buf.bytes 0 s.reader.len.toNat) s)

/-- `W.DATA` (R210): return the committed bytes W.BUF[0 .. ceil8(W.BW) − 1]. -/
def execWData (s : State) : Host.Outcome State Fault Refusal :=
  .next (respond 0 (s.writer.buf.bytes 0 (ceil8 s.writer.bw.toNat)) s)

end Sys2Proof.Machine
end

