-- ==== Sys2Proof/Machine/Primitive.lean ====
section
/-! DEFINITION. The primitive field commands (spec/40_codec.md R111 to R114). The width is checked before
the range (R248). -/

namespace Sys2Proof.Machine

/-- `R.RDBITS w` (R111): read an unsigned field of w bits into RES. -/
def execRRdbits (w : Nat) (s : State) : Host.Outcome State Fault Refusal :=
  .next (if supportedWidth w then readRes w zext64 s else raise .reader .unsupportedWidth s)

/-- `R.RDSBITS w` (R112): read a signed field of w bits into RES, sign-extended. -/
def execRRdsbits (w : Nat) (s : State) : Host.Outcome State Fault Refusal :=
  .next (if supportedWidth w then readRes w (sext64 w) s else raise .reader .unsupportedWidth s)

/-- `W.WRBITS w, a` (R113): write A[w−1:0]. -/
def execWWrbits (w : Nat) (s : State) : Host.Outcome State Fault Refusal :=
  .next (if supportedWidth w then writeData w (valueA w s) s else raise .writer .unsupportedWidth s)

/-- `W.WRSBITS w, a` (R114): write the signed value A in w bits. -/
def execWWrsbits (w : Nat) (s : State) : Host.Outcome State Fault Refusal :=
  .next (if supportedWidth w then writeData w (signedValueA w s) s else raise .writer .unsupportedWidth s)

end Sys2Proof.Machine
end

