-- ==== Sys2Proof/Machine/TypedRead.lean ====
section
/-! DEFINITION. The typed reader commands (spec/41_typed_access.md R140 to R153): each is one ReadField over
its whole range (R130, R131), or one ReadString (R134). Floats are moved as bit patterns (R133). -/

namespace Sys2Proof.Machine

/-- `R.RDU8` (R140): read an unsigned 8-bit integer. -/
def execRRdu8 (s : State) : Host.Outcome State Fault Refusal :=
  .next (readRes 8 zext64 s)

/-- `R.RDU16` (R141): read an unsigned 16-bit integer. -/
def execRRdu16 (s : State) : Host.Outcome State Fault Refusal :=
  .next (readRes 16 zext64 s)

/-- `R.RDU32` (R142): read an unsigned 32-bit integer. -/
def execRRdu32 (s : State) : Host.Outcome State Fault Refusal :=
  .next (readRes 32 zext64 s)

/-- `R.RDU64` (R143): read an unsigned 64-bit integer. -/
def execRRdu64 (s : State) : Host.Outcome State Fault Refusal :=
  .next (readRes 64 zext64 s)

/-- `R.RDI8` (R144): read a signed 8-bit integer. -/
def execRRdi8 (s : State) : Host.Outcome State Fault Refusal :=
  .next (readRes 8 (sext64 8) s)

/-- `R.RDI16` (R145): read a signed 16-bit integer. -/
def execRRdi16 (s : State) : Host.Outcome State Fault Refusal :=
  .next (readRes 16 (sext64 16) s)

/-- `R.RDI32` (R146): read a signed 32-bit integer. -/
def execRRdi32 (s : State) : Host.Outcome State Fault Refusal :=
  .next (readRes 32 (sext64 32) s)

/-- `R.RDI64` (R147): read a signed 64-bit integer. -/
def execRRdi64 (s : State) : Host.Outcome State Fault Refusal :=
  .next (readRes 64 (sext64 64) s)

/-- `R.RDF32` (R148): read a 32-bit IEEE-754 pattern. -/
def execRRdf32 (s : State) : Host.Outcome State Fault Refusal :=
  .next (readRes 32 zext64 s)

/-- `R.RDF64` (R149): read a 64-bit IEEE-754 pattern. -/
def execRRdf64 (s : State) : Host.Outcome State Fault Refusal :=
  .next (readRes 64 zext64 s)

/-- `R.RDBYTES a` (R150): read a run of A bytes into OUT. -/
def execRRdbytes (s : State) : Host.Outcome State Fault Refusal :=
  .next (readOut (8 * countA s) (countA s) s)

/-- `R.RDRUN a` (R151): read a run of A bits into ⌈A / 8⌉ bytes of OUT. -/
def execRRdrun (s : State) : Host.Outcome State Fault Refusal :=
  .next (readOut (countA s) (ceil8 (countA s)) s)

/-- `R.RDSTR` (R152): read a zero-terminated string with no maximum. -/
def execRRdstr (s : State) : Host.Outcome State Fault Refusal :=
  .next (readStr none s)

/-- `R.RDSTRM a` (R153): read a zero-terminated string of at most A bytes. -/
def execRRdstrm (s : State) : Host.Outcome State Fault Refusal :=
  .next (readStr (some (countA s)) s)

end Sys2Proof.Machine
end

