-- ==== Sys2Proof/Machine/TypedWrite.lean ====
section
/-! DEFINITION. The typed writer commands (spec/41_typed_access.md R160 to R172): each is one WriteField over
its whole range, all or nothing (R130, R132). Floats are moved as bit patterns (R133). -/

namespace Sys2Proof.Machine

/-- `W.WRU8 a` (R160): write the unsigned 8-bit integer A[7:0]. -/
def execWWru8 (s : State) : Host.Outcome State Fault Refusal :=
  .next (writeData 8 (valueA 8 s) s)

/-- `W.WRU16 a` (R161): write the unsigned 16-bit integer A[15:0]. -/
def execWWru16 (s : State) : Host.Outcome State Fault Refusal :=
  .next (writeData 16 (valueA 16 s) s)

/-- `W.WRU32 a` (R162): write the unsigned 32-bit integer A[31:0]. -/
def execWWru32 (s : State) : Host.Outcome State Fault Refusal :=
  .next (writeData 32 (valueA 32 s) s)

/-- `W.WRU64 a` (R163): write the unsigned 64-bit integer A[63:0]. -/
def execWWru64 (s : State) : Host.Outcome State Fault Refusal :=
  .next (writeData 64 (valueA 64 s) s)

/-- `W.WRI8 a` (R164): write the signed 8-bit integer SignNorm(A, 8)[7:0]. -/
def execWWri8 (s : State) : Host.Outcome State Fault Refusal :=
  .next (writeData 8 (signedValueA 8 s) s)

/-- `W.WRI16 a` (R165): write the signed 16-bit integer SignNorm(A, 16)[15:0]. -/
def execWWri16 (s : State) : Host.Outcome State Fault Refusal :=
  .next (writeData 16 (signedValueA 16 s) s)

/-- `W.WRI32 a` (R166): write the signed 32-bit integer A[31:0]; no re-normalisation applies (R109). -/
def execWWri32 (s : State) : Host.Outcome State Fault Refusal :=
  .next (writeData 32 (valueA 32 s) s)

/-- `W.WRI64 a` (R167): write the signed 64-bit integer A. -/
def execWWri64 (s : State) : Host.Outcome State Fault Refusal :=
  .next (writeData 64 (valueA 64 s) s)

/-- `W.WRF32 a` (R168): write the 32-bit IEEE-754 pattern A[31:0]. -/
def execWWrf32 (s : State) : Host.Outcome State Fault Refusal :=
  .next (writeData 32 (valueA 32 s) s)

/-- `W.WRF64 a` (R169): write the 64-bit IEEE-754 pattern A[63:0]. -/
def execWWrf64 (s : State) : Host.Outcome State Fault Refusal :=
  .next (writeData 64 (valueA 64 s) s)

/-- `W.WRBYTES in` (R170): write the byte run IN. -/
def execWWrbytes (s : State) : Host.Outcome State Fault Refusal :=
  .next (writeData (8 * lengthIn s) (leNat s.inp) s)

/-- `W.WRRUN a, in` (R171): write A bits taken from IN. The length of IN is checked before the range (R248). -/
def execWWrrun (s : State) : Host.Outcome State Fault Refusal :=
  .next
    (if lengthIn s = ceil8 (countA s) then
      writeData (countA s) (leNat s.inp % 2 ^ countA s) s
    else raise .writer .illegalCommand s)

/-- `W.WRSTR in` (R172): write IN and then one zero byte. -/
def execWWrstr (s : State) : Host.Outcome State Fault Refusal :=
  .next (writeData (8 * (lengthIn s + 1)) (leNat (s.inp ++ [0])) s)

end Sys2Proof.Machine
end

