-- ==== Sys2Proof/Machine/Dispatch.lean ====
section
/-! DEFINITION. The dispatch: one arm per command, each a direct call of its meaning. -/

namespace Sys2Proof.Machine

def exec (i : Instr) (s : State) : Host.Outcome State Fault Refusal :=
  match i with
  | .rNew => Sys2Proof.Machine.execRNew s
  | .rRdbits w => Sys2Proof.Machine.execRRdbits w s
  | .rRdsbits w => Sys2Proof.Machine.execRRdsbits w s
  | .rRdu8 => Sys2Proof.Machine.execRRdu8 s
  | .rRdu16 => Sys2Proof.Machine.execRRdu16 s
  | .rRdu32 => Sys2Proof.Machine.execRRdu32 s
  | .rRdu64 => Sys2Proof.Machine.execRRdu64 s
  | .rRdi8 => Sys2Proof.Machine.execRRdi8 s
  | .rRdi16 => Sys2Proof.Machine.execRRdi16 s
  | .rRdi32 => Sys2Proof.Machine.execRRdi32 s
  | .rRdi64 => Sys2Proof.Machine.execRRdi64 s
  | .rRdf32 => Sys2Proof.Machine.execRRdf32 s
  | .rRdf64 => Sys2Proof.Machine.execRRdf64 s
  | .rRdbytes => Sys2Proof.Machine.execRRdbytes s
  | .rRdrun => Sys2Proof.Machine.execRRdrun s
  | .rRdstr => Sys2Proof.Machine.execRRdstr s
  | .rRdstrm => Sys2Proof.Machine.execRRdstrm s
  | .rSeek => Sys2Proof.Machine.execRSeek s
  | .rReset => Sys2Proof.Machine.execRReset s
  | .rBitsread => Sys2Proof.Machine.execRBitsread s
  | .rData => Sys2Proof.Machine.execRData s
  | .wNew => Sys2Proof.Machine.execWNew s
  | .wWrbits w => Sys2Proof.Machine.execWWrbits w s
  | .wWrsbits w => Sys2Proof.Machine.execWWrsbits w s
  | .wWru8 => Sys2Proof.Machine.execWWru8 s
  | .wWru16 => Sys2Proof.Machine.execWWru16 s
  | .wWru32 => Sys2Proof.Machine.execWWru32 s
  | .wWru64 => Sys2Proof.Machine.execWWru64 s
  | .wWri8 => Sys2Proof.Machine.execWWri8 s
  | .wWri16 => Sys2Proof.Machine.execWWri16 s
  | .wWri32 => Sys2Proof.Machine.execWWri32 s
  | .wWri64 => Sys2Proof.Machine.execWWri64 s
  | .wWrf32 => Sys2Proof.Machine.execWWrf32 s
  | .wWrf64 => Sys2Proof.Machine.execWWrf64 s
  | .wWrbytes => Sys2Proof.Machine.execWWrbytes s
  | .wWrrun => Sys2Proof.Machine.execWWrrun s
  | .wWrstr => Sys2Proof.Machine.execWWrstr s
  | .wSeek => Sys2Proof.Machine.execWSeek s
  | .wReset => Sys2Proof.Machine.execWReset s
  | .wBitswritten => Sys2Proof.Machine.execWBitswritten s
  | .wByteswritten => Sys2Proof.Machine.execWByteswritten s
  | .wData => Sys2Proof.Machine.execWData s

end Sys2Proof.Machine
end

