-- ==== Sys2Proof/Machine/Step.lean ====
section
/-! DEFINITION. One step of the block: it takes the host's next event (spec/10_state.md R30; log 1). -/

namespace Sys2Proof.Machine

/-- What the block does with the command in CMD: run it, or end an illegal word with IllegalCommand, which
changes no unit (R77 to R79, R243, R247, R248). -/
def runCommand (s : State) : Host.Outcome State Fault Refusal :=
  match decode s.cmd with
  | .ok i => exec i s
  | .error _ => .next (respondError .illegalCommand s)

/-- One step. With no event the block does nothing: it has "no agent of its own that steps without a
command" (R4) and its state persists (R259). Block reset happens between commands (R280). A transaction is
taken, decoded and run whole before the next (R58, R64). -/
def step (s : State) : Host.Outcome State Fault Refusal :=
  match s.pending with
  | [] => .next s
  | .blockReset :: rest => .next (blockReset rest s)
  | .command t :: rest =>
    if portAccepts s.limits t then runCommand (accept t rest s) else .refused .inTooLong

/-- The state in which the host presents the given command word next (log 1). -/
def State.withFetchWord (s : State) (nbits w : Nat) : State := presentWord s nbits w

end Sys2Proof.Machine
end

