-- ==== Sys2Proof/Machine/Datapath.lean ====
section
/-! DEFINITION. The word-level datapaths that implement MemRead and MemWrite (spec/40_codec.md R102,
R106) and the byte-run cascade (spec/41_typed_access.md R131). The commands' meanings use memRead and
memWrite; the spec says the datapaths return the same values (log 11). -/

namespace Sys2Proof.Machine

/-- `byteAt(k)`: a byte past the buffer of `len` bytes reads as 0 (R102, R106). -/
def byteAt (m : Memory) (len k : Nat) : Byte := if k < len then m.read k else 0

/-- The little-endian 32-bit word at byte k (R102, R106). -/
def wordAt (m : Memory) (len k : Nat) : Nat :=
  leNat [byteAt m len k, byteAt m len (k + 1), byteAt m len (k + 2), byteAt m len (k + 3)]

/-- The extract datapath for 1 ≤ n ≤ 32 (R102): word1 is loaded exactly when the field crosses word0. -/
def extract32 (m : Memory) (len pos n : Nat) : Nat :=
  let byteOffset := pos / 8
  let bitOffset := pos % 8
  let word0 := wordAt m len byteOffset
  let word1 := if Config.wordBits < bitOffset + n then wordAt m len (byteOffset + 4) else 0
  let high := if bitOffset = 0 then 0 else (word1 <<< (Config.wordBits - bitOffset)) % 2 ^ Config.wordBits
  (((word0 >>> bitOffset) ||| high) % 2 ^ Config.wordBits) &&& mask n

/-- The extract datapath for 1 ≤ n ≤ 64: above 32 bits, two 32-bit operations (R102). -/
def extract (m : Memory) (len pos n : Nat) : Nat :=
  if n ≤ 32 then extract32 m len pos n
  else extract32 m len pos 32 ||| (extract32 m len (pos + 32) (n - 32) <<< 32)

/-- Store the low k bytes of a word from byte index i on; no byte at or past `len` is stored (R106). -/
def storeBytes (m : Memory) (len : Nat) : Nat → Nat → Nat → Memory
  | _, 0, _ => m
  | i, k + 1, v =>
    storeBytes (if i < len then m.write i (BitVec.ofNat 8 v) else m) len (i + 1) k (v / 256)

/-- One inject merge: the bits of `word` under `mask` are replaced by those of `rot` (R106). -/
def mergeWord (word mask rot : Nat) : Nat := word ^^^ (mask &&& (rot ^^^ word))

/-- The inject datapath for 1 ≤ n ≤ 32 (R106), with the conditional store of word1. -/
def inject32 (m : Memory) (len pos n v : Nat) : Memory :=
  let dwordIndex := pos / 32
  let bitOffset := pos % 32
  let word0 := wordAt m len (4 * dwordIndex)
  let word1 := wordAt m len (4 * dwordIndex + 4)
  let d := v % 2 ^ Config.wordBits
  let right := if bitOffset = 0 then 0 else d >>> (Config.wordBits - bitOffset)
  let rot := ((d <<< bitOffset) ||| right) % 2 ^ Config.wordBits
  let mask1 := (mask n <<< bitOffset) % 2 ^ Config.wordBits
  let mask2 := if 0 < bitOffset then mask n >>> (Config.wordBits - bitOffset) else 0
  let m0 := storeBytes m len (4 * dwordIndex) 4 (mergeWord word0 mask1 rot)
  if mask2 = 0 then m0
  else storeBytes m0 len (4 * dwordIndex + 4) 4 (mergeWord word1 mask2 rot)

/-- The inject datapath for 1 ≤ n ≤ 64: above 32 bits, two passes, the low 32 bits first (R106). -/
def inject (m : Memory) (len pos n v : Nat) : Memory :=
  if n ≤ 32 then inject32 m len pos n v
  else inject32 (inject32 m len pos 32 v) len (pos + 32) (n - 32) (v / 2 ^ 32)

/-- `count` consecutive chunks of `width` bits, each one extract, the first the least significant. -/
def readChunks (m : Memory) (len width : Nat) : Nat → Nat → Nat
  | _, 0 => 0
  | pos, count + 1 =>
    extract32 m len pos width + 2 ^ width * readChunks m len width (pos + width) count

/-- The byte-run read cascade (R131): whole 32-bit chunks, then whole bytes, then the bit remainder. -/
def cascadeRead (m : Memory) (len pos n : Nat) : Nat :=
  let dwords := n / 32
  let bytes := n % 32 / 8
  let rem := n % 8
  let bytePos := pos + 32 * dwords
  readChunks m len 32 pos dwords
    + 2 ^ (32 * dwords) *
      (readChunks m len 8 bytePos bytes
        + 2 ^ (8 * bytes) * (if rem = 0 then 0 else extract32 m len (bytePos + 8 * bytes) rem))

end Sys2Proof.Machine
end

