-- ==== Sys2Proof/Safety.lean ====
section
/-! DEFINITION. What the statements speak of: the invariant of the block (spec/10_state.md R36 with the
canonical form of the buffers and R75's shape of a response), when an access fits, and the frames. -/

namespace Sys2Proof.Machine

/-! ## The invariant -/

/-- The reader's part of R36: R.TOT = 8 × R.LEN, the buffer within its length and in canonical form, and
R.LEN within its limit (R20). R.CUR is any 64-bit value (R23). -/
def Reader.ok (r : Reader) (l : Limits) : Prop :=
  r.buf.wf = true ∧ r.buf.within r.len.toNat = true ∧ r.tot.toNat = 8 * r.len.toNat ∧
    r.len.toNat ≤ l.rbufMaxBytes.toNat

/-- The writer's part of R36, with the buffer within W.CAP + 4 bytes and in canonical form, and the storage
within its limit (R24). -/
def Writer.ok (w : Writer) (l : Limits) : Prop :=
  w.buf.wf = true ∧ w.buf.within (w.cap.toNat + 4) = true ∧ w.tot.toNat = 8 * w.cap.toNat + 32 ∧
    w.cap.toNat + 4 ≤ l.wbufMaxBytes.toNat ∧ w.cur.toNat ≤ w.tot.toNat ∧ w.bw.toNat ≤ w.tot.toNat ∧
    (w.poison = true → w.cur = w.tot ∧ w.bw = w.tot)

/-- The shape of the response registers: ST is one of 0 to 4 (R240), OVF is 0 unless ST = 1, and a failed
command has RES = 0 and OUT = [] (R75). -/
def State.responseOk (s : State) : Prop :=
  s.st.toNat ≤ 4 ∧ (s.st ≠ 1 → s.ovf = 0) ∧ (s.st ≠ 0 → s.res = 0 ∧ s.out = [])

/-- The invariant of the block (R36, R75, R240). -/
def State.Inv (s : State) : Prop := s.reader.ok s.limits ∧ s.writer.ok s.limits ∧ s.responseOk

/-! ## When an access fits -/

/-- A read of n bits passes the bounds check (R101). -/
def State.readFits (s : State) (n : Nat) : Prop := s.reader.cur.toNat + n ≤ s.reader.tot.toNat

/-- A write of n bits passes the check (R105). -/
def State.writeFits (s : State) (n : Nat) : Prop :=
  s.writer.poison = false ∧ s.writer.cur.toNat + n ≤ s.writer.tot.toNat

/-! ## Frames -/

/-- The response registers hold (ST, OVF, RES, OUT), and a response is pending. -/
def State.answers (t : State) (st : BitVec 3) (ovf : Nat) (res : Word64) (out : List Byte) : Prop :=
  t.st = st ∧ t.ovf.toNat = ovf ∧ t.res = res ∧ t.out = out ∧ t.responded = true

/-- The input registers, the host's later events and the limits are unchanged. -/
def State.keepsPort (s t : State) : Prop :=
  t.cmd = s.cmd ∧ t.a = s.a ∧ t.inp = s.inp ∧ t.pending = s.pending ∧ t.limits = s.limits

/-- Nothing of the reader has changed but R.CUR: every byte, R.LEN and R.TOT are as before. -/
def Reader.keepsBuffer (r q : Reader) : Prop :=
  (∀ a, q.buf.read a = r.buf.read a) ∧ q.buf = r.buf ∧ q.len = r.len ∧ q.tot = r.tot

/-- The bits of the writer's buffer after a write of n bits at bit address pos: bit i of the field holds
v i, and every other bit, so every byte wholly outside the field, is as before (R60). -/
def Writer.storedAt (w q : Writer) (pos n : Nat) (v : Nat → Bool) : Prop :=
  (∀ i, i < n → q.buf.bit (pos + i) = v i) ∧
    (∀ j, j < pos ∨ pos + n ≤ j → q.buf.bit j = w.buf.bit j) ∧
    (∀ a, 8 * a + 8 ≤ pos ∨ pos + n ≤ 8 * a → q.buf.read a = w.buf.read a)

/-- W.CAP and W.TOT are unchanged. -/
def Writer.keepsSize (w q : Writer) : Prop := q.cap = w.cap ∧ q.tot = w.tot

/-- A reader command that moves at most R.CUR and answers: every byte of R.BUF, R.LEN, R.TOT, the whole
writer, the input registers, the later events and the limits are as before. -/
def State.readerFrame (s t : State) : Prop :=
  s.reader.keepsBuffer t.reader ∧ t.writer = s.writer ∧ s.keepsPort t

/-- A writer command that changes at most W.BUF, W.CUR, W.BW and W.POISON and answers. -/
def State.writerFrame (s t : State) : Prop :=
  s.writer.keepsSize t.writer ∧ t.reader = s.reader ∧ s.keepsPort t

/-- A command that answers and changes nothing else: both units are as before. -/
def State.onlyAnswers (s t : State) : Prop :=
  t.reader = s.reader ∧ t.writer = s.writer ∧ s.keepsPort t

/-- A successful write of n bits from the cursor on: the field is stored, the cursor advances, the
high-water mark follows R107, and the writer stays unpoisoned. -/
def Writer.wrote (w q : Writer) (n : Nat) (v : Nat → Bool) : Prop :=
  w.storedAt q w.cur.toNat n v ∧ q.cur.toNat = w.cur.toNat + n ∧
    q.bw.toNat = (if w.cur = w.bw then w.cur.toNat + n else w.bw.toNat) ∧ q.poison = false

/-- The next event is a transaction whose word is illegal, and the step ends it with IllegalCommand: both
units and the limits are as before (R243, R247). -/
def State.endsIllegal (s : State) (rest : List HostEvent) : Prop :=
  ∃ u, step s = .next u ∧ u.answers 3 0 0 [] ∧ u.reader = s.reader ∧ u.writer = s.writer ∧
    u.limits = s.limits ∧ u.pending = rest

/-! ## Runs -/

/-- k steps of the block from s, while each answers a next state. -/
def stepsTo : Nat → State → State → Prop
  | 0, s, t => t = s
  | k + 1, s, t => ∃ u, step s = .next u ∧ stepsTo k u t

end Sys2Proof.Machine
end

