-- ==== Sys2Proof/Certificates/Slice0/Obligations.lean ====
section
/-! DEFINITION. The statements about the bitbuf core, for the provers. Each docstring says what the
statement claims; OBLIGATIONS.json says which rule or section of spec/ it rests on. -/

open Sys2Proof Sys2Proof.Machine

/-- For every well-formed command, with every width the 7-bit field admits, the decoder reads the encoder's
word as that command. -/
def Obligations.DecodeEncodeRoundTrip : Prop :=
  ∀ i : Instr, i.wf = true → decode (encode i) = .ok i

/-- Every command word that decodes, decodes to a well-formed command whose encoding is that very word, so
each legal word has one meaning and each command one word. -/
def Obligations.DecodedWordIsItsEncoding : Prop :=
  ∀ (cmd : Word) (i : Instr), decode cmd = .ok i → i.wf = true ∧ encode i = cmd

/-- For every word that decodes, bit 5 of the word is 1 exactly when the command is one of the writer unit.
-/
def Obligations.OpcodeBitFiveSelectsTheUnit : Prop :=
  ∀ (cmd : Word) (i : Instr), decode cmd = .ok i → cmd.getLsbD 5 = decide (unitOf i = .writer)

/-- A transaction whose OP is one of the unassigned values ends with IllegalCommand, and both units, the
limits and the later events are as before. Every other OP value, alone in a word, decodes. -/
def Obligations.UnassignedOpcodesAreIllegal : Prop :=
  (∀ (s : State) (x : Transaction) (rest : List HostEvent) (op : Nat),
    s.pending = .command x :: rest → x.inp.length ≤ s.limits.inMaxBytes.toNat →
    (x.cmd.extractLsb' 0 8).toNat = op →
    op = 0x00 ∨ op = 0x0E ∨ op = 0x0F ∨ (0x14 ≤ op ∧ op ≤ 0x17) ∨ (0x1C ≤ op ∧ op ≤ 0x20) ∨
      op = 0x2E ∨ op = 0x2F ∨ (0x33 ≤ op ∧ op ≤ 0x37) ∨ (0x3D ≤ op ∧ op ≤ 0xFF) →
    s.endsIllegal rest) ∧
  ∀ op : Nat, op < 256 →
    ¬ (op = 0x00 ∨ op = 0x0E ∨ op = 0x0F ∨ (0x14 ≤ op ∧ op ≤ 0x17) ∨ (0x1C ≤ op ∧ op ≤ 0x20) ∨
      op = 0x2E ∨ op = 0x2F ∨ (0x33 ≤ op ∧ op ≤ 0x37) ∨ (0x3D ≤ op ∧ op ≤ 0xFF)) →
    ∃ i, decode (BitVec.ofNat 32 op) = .ok i

/-- A transaction whose bits 31 to 15 are not all 0 ends with IllegalCommand, whatever its OP and WID, and
changes no unit. -/
def Obligations.ReservedBitsAreIllegal : Prop :=
  ∀ (s : State) (x : Transaction) (rest : List HostEvent),
    s.pending = .command x :: rest → x.inp.length ≤ s.limits.inMaxBytes.toNat →
    x.cmd.extractLsb' 15 17 ≠ 0 → s.endsIllegal rest

/-- A transaction whose OP is none of 0x02, 0x03, 0x22 and 0x23 (R.RDBITS, R.RDSBITS, W.WRBITS, W.WRSBITS)
and whose WID is not 0 ends with IllegalCommand and changes no unit. -/
def Obligations.WidthOnAnotherCommandIsIllegal : Prop :=
  ∀ (s : State) (x : Transaction) (rest : List HostEvent),
    s.pending = .command x :: rest → x.inp.length ≤ s.limits.inMaxBytes.toNat →
    x.cmd.extractLsb' 0 8 ∉ [opcode (.rRdbits 0), opcode (.rRdsbits 0), opcode (.wWrbits 0),
      opcode (.wWrsbits 0)] →
    x.cmd.extractLsb' 8 7 ≠ 0 → s.endsIllegal rest

/-- Nine command words written out bit by bit from the fields of the opcode table decode to the commands
they stand for, and two illegal ones do not. -/
def Obligations.WrittenOutWordsDecode : Prop :=
  decode 0b00000000000000000000000000000001 = .ok .rNew ∧
  decode 0b00000000000000000000001100000010 = .ok (.rRdbits 3) ∧
  decode 0b00000000000000000100000000000011 = .ok (.rRdsbits 64) ∧
  decode 0b00000000000000000111111100100010 = .ok (.wWrbits 127) ∧
  decode 0b00000000000000000000010100100011 = .ok (.wWrsbits 5) ∧
  decode 0b00000000000000000000000000001010 = .ok .rRdi32 ∧
  decode 0b00000000000000000000000000101101 = .ok .wWrf64 ∧
  decode 0b00000000000000000000000000110001 = .ok .wWrrun ∧
  decode 0b00000000000000000000000000111100 = .ok .wData ∧
  decode 0b00000000000000001000000000100100 = .error .reservedBits ∧
  decode 0b00000000000000000000100000100100 = .error .widthNotUsed

/-- When the host's next event is a transaction whose IN the port carries and whose CMD decodes to i, the
step is exec of i in the state whose CMD, A and IN registers hold the transaction and whose later events
remain. -/
def Obligations.StepRunsTheDecodedCommand : Prop :=
  ∀ (s : State) (x : Transaction) (rest : List HostEvent) (i : Instr),
    s.pending = .command x :: rest → x.inp.length ≤ s.limits.inMaxBytes.toNat →
    decode x.cmd = .ok i →
    step s = exec i { s with cmd := x.cmd, a := x.a, inp := x.inp, pending := rest }

/-- The host must not present an IN longer than IN_MAX_BYTES; a step whose next event is such a transaction
is refused by name, whatever the command (the model's form of I12, log 4). -/
def Obligations.OverlongInIsRefused : Prop :=
  ∀ (s : State) (x : Transaction) (rest : List HostEvent),
    s.pending = .command x :: rest → s.limits.inMaxBytes.toNat < x.inp.length →
    step s = .refused .inTooLong

/-- Every step with an event waiting takes exactly the first event, and what it does is the same whatever
further events the host issues after the ones already waiting. That the host's events wait in a list of
which a step takes the first is the model's choice (log 1), and so is that a block reset keeps the later
ones (log 9). -/
def Obligations.StepsFollowIssueOrder : Prop :=
  ∀ (s t : State) (es : List HostEvent), s.pending ≠ [] → step s = .next t →
    t.pending = s.pending.tail ∧ step (s.issue es) = .next (t.issue es)

/-- A block reset sets R.BUF to no bytes, R.LEN, R.TOT, R.CUR, W.CAP, W.CUR, W.BW and W.POISON to 0, W.BUF
to four zero bytes and W.TOT to 32. R.NEW with an empty IN makes the same reader, and W.NEW with A = 0 the
same writer where WBUF_MAX_BYTES admits its 4 bytes. No response is pending. -/
def Obligations.BlockResetSetsTheResetState : Prop :=
  ∀ (s : State) (rest : List HostEvent), s.pending = .blockReset :: rest →
    ∃ t, step s = .next t ∧
      (∀ k, t.reader.buf.read k = 0) ∧ t.reader.len = 0 ∧ t.reader.tot = 0 ∧ t.reader.cur = 0 ∧
      t.writer.cap = 0 ∧ t.writer.buf.bytes 0 (t.writer.cap.toNat + 4) = [0, 0, 0, 0] ∧
      t.writer.tot = 32 ∧ t.writer.cur = 0 ∧ t.writer.bw = 0 ∧ t.writer.poison = false ∧
      t.responded = false ∧
      (∃ u, exec .rNew { s with inp := [] } = .next u ∧ u.reader = t.reader) ∧
      (4 ≤ s.limits.wbufMaxBytes.toNat →
        ∃ u, exec .wNew { s with a := 0 } = .next u ∧ u.writer = t.writer)

/-- From every state in which R.TOT = 8 R.LEN, W.BUF has W.CAP + 4 bytes, W.TOT = 8 W.CAP + 32, W.CUR and
W.BW are at most W.TOT and poison pins both, the two buffers are in canonical form within their lengths and
limits, and the response has the shape of R75, every step that answers a next state reaches such a state.
The reset state has these facts, for any limits that admit the 4-byte reset writer. The model's choices in
this are the canonical form of a buffer whose unlisted bytes are 0 (log 5), the limits held in the state
(log 3) and kept by a block reset (log 9), and the value 0 or [] of ST, OVF, RES and OUT after reset and
block reset, which gives the response its shape there (log 2). -/
def Obligations.EveryStepKeepsTheInvariant : Prop :=
  (∀ s t : State, s.Inv → step s = .next t → t.Inv) ∧
  ∀ l : Limits, 4 ≤ l.wbufMaxBytes.toNat → (State.resetWith l).Inv

/-- For all limits that admit the 4-byte reset writer, the reset state satisfies the invariant of the block,
W.TOT is 32, and no response and no event is pending. The model's choices in this are that no event is
pending (log 1), the value 0 or [] of ST, OVF, RES and OUT, which gives the response its shape (log 2), the
limits held in the state (log 3) and the canonical form of a buffer (log 5). -/
def Obligations.ResetStateHasTheInvariant : Prop :=
  ∀ l : Limits, 4 ≤ l.wbufMaxBytes.toNat →
    (State.resetWith l).Inv ∧ (State.resetWith l).writer.tot = 32 ∧
      (State.resetWith l).responded = false ∧ (State.resetWith l).pending = []

/-- Every command, in every state, answers a next state that holds a response and leaves the input
registers, the later events and the limits as they were. So a step answers a next state unless the host
presents an IN longer than IN_MAX_BYTES. -/
def Obligations.EveryCommandCompletes : Prop :=
  (∀ (i : Instr) (s : State), ∃ t, exec i s = .next t ∧ t.responded = true ∧ s.keepsPort t) ∧
  ∀ s : State, (∀ x rest, s.pending = .command x :: rest → x.inp.length ≤ s.limits.inMaxBytes.toNat) →
    ∃ t, step s = .next t

/-- A reader command leaves the writer as it was and does the same, response included, whatever the writer
is; a writer command leaves the reader as it was and does the same whatever the reader is. -/
def Obligations.UnitsDoNotInterfere : Prop :=
  (∀ (i : Instr) (s : State) (w : Writer), unitOf i = .reader →
    ∃ t, exec i s = .next t ∧ t.writer = s.writer ∧
      exec i { s with writer := w } = .next { t with writer := w }) ∧
  ∀ (i : Instr) (s : State) (r : Reader), unitOf i = .writer →
    ∃ t, exec i s = .next t ∧ t.reader = s.reader ∧
      exec i { s with reader := r } = .next { t with reader := r }

/-- A command whose row of the opcode table names no A operand does the same for every value of A, and one
whose row names no IN operand does the same for every IN. -/
def Obligations.UnusedOperandsAreIgnored : Prop :=
  (∀ (i : Instr) (s : State) (x : Word64), usesA i = false →
    ∃ t, exec i s = .next t ∧ exec i { s with a := x } = .next { t with a := x }) ∧
  ∀ (i : Instr) (s : State) (bytes : List Byte), usesIn i = false →
    ∃ t, exec i s = .next t ∧ exec i { s with inp := bytes } = .next { t with inp := bytes }

/-- A step whose event is neither a block reset nor a transaction that decodes to R.NEW leaves every byte of
R.BUF, R.LEN and R.TOT as they were. -/
def Obligations.OnlyNewAndResetReplaceTheReaderBuffer : Prop :=
  ∀ s t : State, step s = .next t →
    (∀ rest, s.pending ≠ .blockReset :: rest) →
    (∀ x rest, s.pending = .command x :: rest → decode x.cmd ≠ .ok .rNew) →
    s.reader.keepsBuffer t.reader

/-- Every reader command, run a second time after the cursor is put back where it was, answers the same
response and reaches the same state: reads have no side effect on the buffer. -/
def Obligations.ReadsAreRepeatable : Prop :=
  ∀ (i : Instr) (s t : State), unitOf i = .reader → exec i s = .next t →
    exec i { t with reader := { t.reader with cur := s.reader.cur } } = .next t

/-- R.RDBITS with width 1 to 64, R.RDU8, R.RDU16, R.RDU32, R.RDU64, R.RDF32 and R.RDF64, where the field
fits, answer ST = 0 with RES holding the n bits from the cursor on, lowest address least significant, and 0
above, and advance R.CUR by n. Nothing else changes. -/
def Obligations.UnsignedReadsReturnTheField : Prop :=
  ∀ (s : State) (i : Instr) (n : Nat),
    (i, n) ∈ [(Instr.rRdu8, 8), (.rRdu16, 16), (.rRdu32, 32), (.rRdu64, 64), (.rRdf32, 32),
      (.rRdf64, 64)] ∨ (i = .rRdbits n ∧ 1 ≤ n ∧ n ≤ 64) →
    s.readFits n →
    ∃ t, exec i s = .next t ∧ t.answers 0 0 t.res [] ∧
      (∀ j, t.res.getLsbD j = (decide (j < n) && s.reader.buf.bit (s.reader.cur.toNat + j))) ∧
      t.reader.cur.toNat = s.reader.cur.toNat + n ∧ s.readerFrame t

/-- R.RDSBITS with width 1 to 64, R.RDI8, R.RDI16, R.RDI32 and R.RDI64, where the field fits, answer ST = 0
with RES holding the n bits from the cursor on and copies of bit n - 1 above them, and advance R.CUR by n.
Nothing else changes. -/
def Obligations.SignedReadsReturnTheExtendedField : Prop :=
  ∀ (s : State) (i : Instr) (n : Nat),
    (i, n) ∈ [(Instr.rRdi8, 8), (.rRdi16, 16), (.rRdi32, 32), (.rRdi64, 64)] ∨
      (i = .rRdsbits n ∧ 1 ≤ n ∧ n ≤ 64) →
    s.readFits n →
    ∃ t, exec i s = .next t ∧ t.answers 0 0 t.res [] ∧
      (∀ j, j < 64 →
        t.res.getLsbD j = s.reader.buf.bit (s.reader.cur.toNat + (if j < n then j else n - 1))) ∧
      t.reader.cur.toNat = s.reader.cur.toNat + n ∧ s.readerFrame t

/-- Every reader data command of n bits (R.RDBYTES and R.RDRUN included) fails with OutOfBounds and OVF =
R.CUR + n - R.TOT when R.CUR + n > R.TOT, without moving the cursor or changing anything but the response;
the overflow is n when R.CUR = R.TOT. Otherwise, an exact fit included, it succeeds and advances. -/
def Obligations.ReaderBoundsCheck : Prop :=
  ∀ (s : State) (i : Instr) (n : Nat), unitOf i = .reader → accessBits i s = some n →
    (s.reader.tot.toNat < s.reader.cur.toNat + n →
      ∃ t, exec i s = .next t ∧
        t.answers 1 (s.reader.cur.toNat + n - s.reader.tot.toNat) 0 [] ∧
        (s.reader.cur = s.reader.tot → t.ovf.toNat = n) ∧ s.onlyAnswers t) ∧
    (s.reader.cur.toNat + n ≤ s.reader.tot.toNat →
      ∃ t, exec i s = .next t ∧ t.st = 0 ∧ t.reader.cur.toNat = s.reader.cur.toNat + n ∧
        s.readerFrame t)

/-- R.RDBYTES, where the run fits, answers ST = 0 with OUT holding A bytes, byte k the 8 bits at R.CUR + 8k,
and advances R.CUR by 8A. Nothing else changes. -/
def Obligations.ByteRunReadReturnsItsBytes : Prop :=
  ∀ s : State, s.readFits (8 * s.a.toNat) →
    ∃ t, exec .rRdbytes s = .next t ∧ t.answers 0 0 0 t.out ∧ t.out.length = s.a.toNat ∧
      (∀ k j, k < s.a.toNat → j < 8 →
        (t.out.getD k 0).getLsbD j = s.reader.buf.bit (s.reader.cur.toNat + 8 * k + j)) ∧
      t.reader.cur.toNat = s.reader.cur.toNat + 8 * s.a.toNat ∧ s.readerFrame t

/-- R.RDRUN, where the run fits, answers ST = 0 with OUT holding ⌈A / 8⌉ bytes whose bit i is the bit at
R.CUR + i for i < A and 0 above, and advances R.CUR by A. Nothing else changes. -/
def Obligations.BitRunReadReturnsItsBits : Prop :=
  ∀ s : State, s.readFits s.a.toNat →
    ∃ t, exec .rRdrun s = .next t ∧ t.answers 0 0 0 t.out ∧
      8 * t.out.length < s.a.toNat + 8 ∧ s.a.toNat ≤ 8 * t.out.length ∧
      (∀ k j, k < t.out.length → j < 8 →
        (t.out.getD k 0).getLsbD j =
          (decide (8 * k + j < s.a.toNat) && s.reader.buf.bit (s.reader.cur.toNat + (8 * k + j)))) ∧
      t.reader.cur.toNat = s.reader.cur.toNat + s.a.toNat ∧ s.readerFrame t

/-- R.RDSTR (no maximum) and R.RDSTRM (maximum A) answer ST = 0 in every state. They consume c bytes, at
most the maximum and only while 8 bits are left below R.TOT; OUT holds the nonzero bytes consumed; and they
stop at a zero byte, which is consumed but not returned, or at the maximum, or where fewer than 8 bits
remain. A start above R.TOT consumes nothing. Nothing but R.CUR and the response changes. -/
def Obligations.StringReadsStopAtZeroLimitOrEnd : Prop :=
  ∀ (s : State) (i : Instr) (limit : Option Nat),
    (i = .rRdstr ∧ limit = none) ∨ (i = .rRdstrm ∧ limit = some s.a.toNat) →
    ∃ t c, exec i s = .next t ∧ t.answers 0 0 0 t.out ∧ s.readerFrame t ∧
      t.reader.cur.toNat = s.reader.cur.toNat + 8 * c ∧
      (0 < c → s.reader.cur.toNat + 8 * c ≤ s.reader.tot.toNat) ∧
      (∀ m, limit = some m → c ≤ m) ∧
      (∀ k, k < t.out.length → t.out.getD k 0 ≠ 0 ∧
        ∀ j, j < 8 →
          (t.out.getD k 0).getLsbD j = s.reader.buf.bit (s.reader.cur.toNat + 8 * k + j)) ∧
      ((c = t.out.length + 1 ∧
          ∀ j, j < 8 → s.reader.buf.bit (s.reader.cur.toNat + 8 * t.out.length + j) = false) ∨
        (c = t.out.length ∧
          (limit = some c ∨ s.reader.tot.toNat < s.reader.cur.toNat + 8 * c + 8)))

/-- R.RDBITS, R.RDSBITS, W.WRBITS and W.WRSBITS with WID = 0 or WID > 64 answer ST = 2 with OVF = 0,
whatever the cursor: the reader commands change nothing else, the writer commands store no bit, pin W.CUR
and W.BW to W.TOT and poison. No other command or width answers ST = 2. -/
def Obligations.UnsupportedWidthsFail : Prop :=
  (∀ (s : State) (w : Nat), w = 0 ∨ 64 < w →
    (∀ i, i = .rRdbits w ∨ i = .rRdsbits w →
      ∃ t, exec i s = .next t ∧ t.answers 2 0 0 [] ∧ s.onlyAnswers t) ∧
    (∀ i, i = .wWrbits w ∨ i = .wWrsbits w →
      ∃ t, exec i s = .next t ∧ t.answers 2 0 0 [] ∧ s.writerFrame t ∧
        t.writer = { s.writer with cur := s.writer.tot, bw := s.writer.tot, poison := true })) ∧
  ∀ (i : Instr) (s t : State), exec i s = .next t → t.st = 2 →
    ∃ w, (i = .rRdbits w ∨ i = .rRdsbits w ∨ i = .wWrbits w ∨ i = .wWrsbits w) ∧ (w = 0 ∨ 64 < w)

/-- A reader command that ends with OutOfBounds or UnsupportedWidth leaves R.CUR, R.BUF, R.LEN and R.TOT as
they were at entry, and the writer too. -/
def Obligations.ReaderErrorsChangeNothing : Prop :=
  ∀ (i : Instr) (s t : State), unitOf i = .reader → exec i s = .next t → t.st = 1 ∨ t.st = 2 →
    s.onlyAnswers t

/-- W.WRBITS and W.WRSBITS with width 1 to 64, and the eight integer and two float writes, on an unpoisoned
writer where the field fits, answer ST = 0, store A[n-1:0] at W.CUR, change no other bit of W.BUF, advance
W.CUR by n, and move W.BW to the end only if the write starts at W.BW. W.CAP, W.TOT and the reader are
unchanged. -/
def Obligations.SizedWritesStoreTheLowBitsOfA : Prop :=
  ∀ (s : State) (i : Instr) (n : Nat),
    (i, n) ∈ [(Instr.wWru8, 8), (.wWru16, 16), (.wWru32, 32), (.wWru64, 64), (.wWri8, 8), (.wWri16, 16),
      (.wWri32, 32), (.wWri64, 64), (.wWrf32, 32), (.wWrf64, 64)] ∨
      ((i = .wWrbits n ∨ i = .wWrsbits n) ∧ 1 ≤ n ∧ n ≤ 64) →
    s.writer.buf.wf = true → s.writeFits n →
    ∃ t, exec i s = .next t ∧ t.answers 0 0 0 [] ∧ s.writer.wrote t.writer n (fun k => s.a.getLsbD k) ∧
      s.writerFrame t

/-- W.WRBYTES, on an unpoisoned writer where the run fits, answers ST = 0 and stores the 8 len(IN) bits of
IN at W.CUR, byte k at W.CUR + 8k, and changes no other bit; W.CUR and W.BW follow as for one write. -/
def Obligations.ByteRunWriteStoresIn : Prop :=
  ∀ s : State, s.writer.buf.wf = true → s.writeFits (8 * s.inp.length) →
    ∃ t, exec .wWrbytes s = .next t ∧ t.answers 0 0 0 [] ∧
      s.writer.wrote t.writer (8 * s.inp.length) (fun k => (s.inp.getD (k / 8) 0).getLsbD (k % 8)) ∧
      s.writerFrame t

/-- W.WRRUN with len(IN) = ⌈A / 8⌉, on an unpoisoned writer where the run fits, answers ST = 0 and stores
the low A bits of IN at W.CUR and no other bit. With any other length it answers IllegalCommand and changes
no unit, not even a poisoned or full writer. -/
def Obligations.BitRunWriteStoresInOrRejectsLength : Prop :=
  ∀ s : State,
    ((s.a.toNat ≤ 8 * s.inp.length ∧ 8 * s.inp.length < s.a.toNat + 8) → s.writer.buf.wf = true →
      s.writeFits s.a.toNat →
      ∃ t, exec .wWrrun s = .next t ∧ t.answers 0 0 0 [] ∧
        s.writer.wrote t.writer s.a.toNat (fun k => (s.inp.getD (k / 8) 0).getLsbD (k % 8)) ∧
        s.writerFrame t) ∧
    (¬ (s.a.toNat ≤ 8 * s.inp.length ∧ 8 * s.inp.length < s.a.toNat + 8) →
      ∃ t, exec .wWrrun s = .next t ∧ t.answers 3 0 0 [] ∧ s.onlyAnswers t)

/-- W.WRSTR, on an unpoisoned writer where the bytes of IN and one more fit, answers ST = 0 and stores the
bytes of IN followed by eight 0 bits at W.CUR, and changes no other bit. -/
def Obligations.StringWriteAppendsTheZeroByte : Prop :=
  ∀ s : State, s.writer.buf.wf = true → s.writeFits (8 * (s.inp.length + 1)) →
    ∃ t, exec .wWrstr s = .next t ∧ t.answers 0 0 0 [] ∧
      s.writer.wrote t.writer (8 * (s.inp.length + 1))
        (fun k => decide (k < 8 * s.inp.length) && (s.inp.getD (k / 8) 0).getLsbD (k % 8)) ∧
      s.writerFrame t

/-- Every writer data command of n bits, in a state of the block's invariant and with an IN the port
carries, fails with OutOfBounds and OVF = W.CUR + n - W.TOT when W.CUR + n > W.TOT or W.POISON = 1: no bit
is stored and the writer is pinned and poisoned. On a poisoned writer the overflow is n, a zero-length write
included. Otherwise, an exact fit included, it succeeds and advances. -/
def Obligations.WriterBoundsCheck : Prop :=
  ∀ (s : State) (i : Instr) (n : Nat), s.Inv → s.inp.length ≤ s.limits.inMaxBytes.toNat →
    unitOf i = .writer → accessBits i s = some n →
    (s.writer.poison = true ∨ s.writer.tot.toNat < s.writer.cur.toNat + n →
      ∃ t, exec i s = .next t ∧
        t.answers 1 (s.writer.cur.toNat + n - s.writer.tot.toNat) 0 [] ∧
        (s.writer.poison = true → t.ovf.toNat = n) ∧
        t.writer = { s.writer with cur := s.writer.tot, bw := s.writer.tot, poison := true } ∧
        s.writerFrame t) ∧
    (s.writer.poison = false ∧ s.writer.cur.toNat + n ≤ s.writer.tot.toNat →
      ∃ t, exec i s = .next t ∧ t.st = 0 ∧ t.writer.cur.toNat = s.writer.cur.toNat + n ∧
        t.writer.poison = false ∧ s.writerFrame t)

/-- A writer command that ends with OutOfBounds or UnsupportedWidth leaves W.BUF, W.CAP and W.TOT as they
were, sets W.CUR and W.BW to W.TOT and W.POISON to 1. An OutOfBounds records the overflow from the cursor at
entry, before the pin. -/
def Obligations.WriterErrorsPinAndPoison : Prop :=
  ∀ (i : Instr) (s t : State), unitOf i = .writer → exec i s = .next t → t.st = 1 ∨ t.st = 2 →
    t.writer = { s.writer with cur := s.writer.tot, bw := s.writer.tot, poison := true } ∧
      (t.st = 1 → ∃ n, accessBits i s = some n ∧
        t.ovf = BitVec.ofNat 68 (s.writer.cur.toNat + n - s.writer.tot.toNat)) ∧
      s.writerFrame t

/-- Every writer data command of n bits that succeeds sets W.BW to W.CUR + n if W.CUR = W.BW at entry, and
leaves W.BW unchanged otherwise, whether W.CUR is below or above it and even where the write ends beyond it.
-/
def Obligations.HighWaterMarkFollowsSequentialWrites : Prop :=
  ∀ (s : State) (i : Instr) (n : Nat), unitOf i = .writer → accessBits i s = some n → s.writeFits n →
    ∃ t, exec i s = .next t ∧ t.st = 0 ∧
      (s.writer.cur = s.writer.bw → t.writer.bw.toNat = s.writer.cur.toNat + n) ∧
      (s.writer.cur ≠ s.writer.bw → t.writer.bw = s.writer.bw)

/-- A command that changes W.BW is a successful write that started at W.CUR = W.BW, which sets it to the new
W.CUR, or a failing write (ST = 1 or 2), which sets it to W.TOT, or W.NEW, which sets it to 0. -/
def Obligations.OnlyThreeThingsMoveTheHighWaterMark : Prop :=
  ∀ (i : Instr) (s t : State), exec i s = .next t → t.writer.bw ≠ s.writer.bw →
    (unitOf i = .writer ∧ t.st = 0 ∧ s.writer.cur = s.writer.bw ∧ t.writer.bw = t.writer.cur ∧
        ∃ n, accessBits i s = some n) ∨
      (unitOf i = .writer ∧ (t.st = 1 ∨ t.st = 2) ∧ t.writer.bw = s.writer.tot) ∨
      (i = .wNew ∧ t.st = 0 ∧ t.writer.bw = 0)

/-- Two payloads that agree in their low n bits make the same field write of n bits, and the inject datapath
stores the same buffer for both, for every width from 1 to 64. -/
def Obligations.PayloadBitsAboveTheWidthAreIgnored : Prop :=
  ∀ (n v v' : Nat), (∀ k, k < n → v.testBit k = v'.testBit k) →
    (∀ s : State, writeField n v s = writeField n v' s) ∧
      ∀ (m : Memory) (len pos : Nat), n ≤ 64 → inject m len pos n v = inject m len pos n v'

/-- SignNorm(s, n) has the low n bits of s for every n from 1 to 64; for n < 32 every higher bit is bit n -
1 of s; for n of 32 or more it is s itself. -/
def Obligations.SignNormKeepsTheLowBits : Prop :=
  ∀ (v : Word64) (n : Nat), 1 ≤ n → n ≤ 64 →
    (∀ j, j < n → (signNorm v n).getLsbD j = v.getLsbD j) ∧
      (n < 32 → ∀ j, n ≤ j → j < 64 → (signNorm v n).getLsbD j = v.getLsbD (n - 1)) ∧
      (32 ≤ n → signNorm v n = v)

/-- For every buffer in canonical form, writing n bits at a bit address and writing the same bits there
again gives the very buffer that one write gives. -/
def Obligations.WritingTwiceIsWritingOnce : Prop :=
  ∀ (m : Memory) (pos n v : Nat), m.wf = true →
    memWrite (memWrite m pos n v) pos n v = memWrite m pos n v

/-- From a state of the block's invariant whose writer is poisoned, no run of any length changes any part of
the writer, its buffer, cursor and high-water mark included, while the host issues no block reset and no
command word that decodes to W.NEW. -/
def Obligations.PoisonedWriterIsFrozen : Prop :=
  ∀ (k : Nat) (s t : State), s.Inv → s.writer.poison = true →
    (∀ e, e ∈ s.pending → e ≠ .blockReset ∧ ∀ x, e = .command x → decode x.cmd ≠ .ok .wNew) →
    stepsTo k s t → t.writer = s.writer

/-- In a state of the block's invariant whose writer is poisoned, W.BYTESWRITTEN answers W.CAP + 4,
W.BITSWRITTEN answers W.TOT, and W.DATA answers the W.CAP + 4 bytes of W.BUF in order. -/
def Obligations.FailedWriterReportsItsWholeStorage : Prop :=
  ∀ s : State, s.Inv → s.writer.poison = true →
    (∃ t, exec .wByteswritten s = .next t ∧ t.st = 0 ∧ t.res.toNat = s.writer.cap.toNat + 4) ∧
    (∃ t, exec .wBitswritten s = .next t ∧ t.st = 0 ∧ t.res = s.writer.tot) ∧
    (∃ t, exec .wData s = .next t ∧ t.st = 0 ∧ t.out.length = s.writer.cap.toNat + 4 ∧
      ∀ k, k < s.writer.cap.toNat + 4 → t.out.getD k 0 = s.writer.buf.read k)

/-- For every buffer within its length, every bit address and every width from 1 to 64 whose field ends
inside the buffer, the two-word extract datapath (in two halves above 32 bits) returns the value MemRead
defines bit by bit. -/
def Obligations.ExtractDatapathIsMemRead : Prop :=
  ∀ (m : Memory) (len pos n : Nat), 1 ≤ n → n ≤ 64 → pos + n ≤ 8 * len →
    extract m len pos n = memRead m pos n

/-- For every buffer in canonical form within its length, every bit address, width from 1 to 64 whose field
ends inside the buffer, and value, the masked two-word merge with its conditional second store (in two
passes above 32 bits) gives the very buffer MemWrite defines bit by bit. -/
def Obligations.InjectDatapathIsMemWrite : Prop :=
  ∀ (m : Memory) (len pos n v : Nat), m.wf = true → m.within len = true → 1 ≤ n → n ≤ 64 →
    pos + n ≤ 8 * len → inject m len pos n v = memWrite m pos n v

/-- For every run of n bits that ends inside the buffer, of any length, the cascade of whole 32-bit chunks,
whole bytes and a final bit remainder gives the value of one field read over the whole run. -/
def Obligations.ByteRunCascadeIsMemRead : Prop :=
  ∀ (m : Memory) (len pos n : Nat), pos + n ≤ 8 * len → cascadeRead m len pos n = memRead m pos n

/-- For a field that starts at byte b and has 8k bits, MemRead is the little-endian value of the k bytes
from byte b on. -/
def Obligations.AlignedFieldsAreLittleEndian : Prop :=
  ∀ (m : Memory) (b k : Nat), memRead m (8 * b) (8 * k) = leNat (m.bytes b k)

/-- In a state of the block's invariant whose writer is unpoisoned with W.CUR = W.BW, for every width n from
1 to 64 that fits: after W.WRBITS n, W.DATA returns bytes which, given to R.NEW where RBUF_MAX_BYTES admits
them, make a reader in which R.RDBITS n at the write's position returns A[n-1:0] zero-extended and R.RDSBITS
n returns it sign-extended. -/
def Obligations.WrittenFieldReadsBack : Prop :=
  ∀ (s : State) (n : Nat), s.Inv → 1 ≤ n → n ≤ 64 → s.writeFits n → s.writer.cur = s.writer.bw →
    s.writer.cur.toNat + n ≤ 8 * s.limits.rbufMaxBytes.toNat →
    ∃ t1 t2 t3 t4 t5, exec (.wWrbits n) s = .next t1 ∧ exec .wData t1 = .next t2 ∧
      exec .rNew { t2 with inp := t2.out } = .next t3 ∧ t3.st = 0 ∧
      exec (.rRdbits n) { t3 with reader := { t3.reader with cur := s.writer.cur } } = .next t4 ∧
      t4.st = 0 ∧ t4.res.toNat = s.a.toNat % 2 ^ n ∧
      exec (.rRdsbits n) { t3 with reader := { t3.reader with cur := s.writer.cur } } = .next t5 ∧
      t5.st = 0 ∧ ∀ j, j < 64 → t5.res.getLsbD j = s.a.getLsbD (if j < n then j else n - 1)

/-- R.NEW with an IN no longer than RBUF_MAX_BYTES answers ST = 0; R.LEN is len(IN), R.TOT is 8 len(IN),
R.CUR is 0, byte k of R.BUF is byte k of IN, and R.DATA then returns IN. The writer is unchanged. -/
def Obligations.ReaderConstructionCopiesIn : Prop :=
  ∀ s : State, s.inp.length ≤ s.limits.rbufMaxBytes.toNat →
    ∃ t, exec .rNew s = .next t ∧ t.answers 0 0 0 [] ∧ t.reader.len.toNat = s.inp.length ∧
      t.reader.tot.toNat = 8 * s.inp.length ∧ t.reader.cur = 0 ∧
      (∀ k, t.reader.buf.read k = s.inp.getD k 0) ∧ t.writer = s.writer ∧ s.keepsPort t ∧
      ∃ u, exec .rData t = .next u ∧ u.out = s.inp

/-- W.NEW with A + 4 at most WBUF_MAX_BYTES answers ST = 0; W.CAP is A, W.TOT is 8A + 32, W.CUR and W.BW are
0, W.POISON is 0, even where the old writer was poisoned, and every byte of W.BUF is 0. The reader is
unchanged. -/
def Obligations.WriterConstructionIsZeroed : Prop :=
  ∀ s : State, s.a.toNat + 4 ≤ s.limits.wbufMaxBytes.toNat →
    ∃ t, exec .wNew s = .next t ∧ t.answers 0 0 0 [] ∧ t.writer.cap.toNat = s.a.toNat ∧
      t.writer.tot.toNat = 8 * s.a.toNat + 32 ∧ t.writer.cur = 0 ∧ t.writer.bw = 0 ∧
      t.writer.poison = false ∧ (∀ k, t.writer.buf.read k = 0) ∧ t.reader = s.reader ∧ s.keepsPort t

/-- R.NEW with len(IN) > RBUF_MAX_BYTES and W.NEW with A + 4 > WBUF_MAX_BYTES answer ST = 4 with OVF = 0 and
change nothing else. A command that answers ST = 4 is one of these. -/
def Obligations.ResourceLimitOnConstructionOnly : Prop :=
  (∀ s : State, s.limits.rbufMaxBytes.toNat < s.inp.length →
    ∃ t, exec .rNew s = .next t ∧ t.answers 4 0 0 [] ∧ s.onlyAnswers t) ∧
  (∀ s : State, s.limits.wbufMaxBytes.toNat < s.a.toNat + 4 →
    ∃ t, exec .wNew s = .next t ∧ t.answers 4 0 0 [] ∧ s.onlyAnswers t) ∧
  ∀ (i : Instr) (s t : State), exec i s = .next t → t.st = 4 →
    (i = .rNew ∧ s.limits.rbufMaxBytes.toNat < s.inp.length) ∨
      (i = .wNew ∧ s.limits.wbufMaxBytes.toNat < s.a.toNat + 4)

/-- A command that answers ST = 3 or ST = 4, and a step over an illegal word, leave both units as they were,
W.POISON included. -/
def Obligations.IllegalAndResourceErrorsChangeNoUnit : Prop :=
  (∀ (i : Instr) (s t : State), exec i s = .next t → t.st = 3 ∨ t.st = 4 → s.onlyAnswers t) ∧
  ∀ (s t : State) (x : Transaction) (rest : List HostEvent) (e : DecodeError),
    s.pending = .command x :: rest → step s = .next t → decode x.cmd = .error e →
    t.st = 3 ∧ t.reader = s.reader ∧ t.writer = s.writer

/-- In every state R.SEEK answers ST = 0 and sets R.CUR to A, even above R.TOT; R.RESET answers ST = 0 and
sets R.CUR to 0. Nothing else changes. -/
def Obligations.ReaderSeekAndResetMoveTheCursor : Prop :=
  ∀ s : State,
    (∃ t, exec .rSeek s = .next t ∧ t.answers 0 0 0 [] ∧ t.reader.cur = s.a ∧ s.readerFrame t) ∧
    (∃ t, exec .rReset s = .next t ∧ t.answers 0 0 0 [] ∧ t.reader.cur = 0 ∧ s.readerFrame t)

/-- In every state W.SEEK and W.RESET answer ST = 0 and leave W.BUF, W.BW and W.POISON as they were. On an
unpoisoned writer W.SEEK sets W.CUR to the smaller of A and W.TOT and W.RESET sets it to 0; on a poisoned
writer both leave W.CUR as it was. -/
def Obligations.WriterSeekAndResetMoveTheCursor : Prop :=
  ∀ s : State,
    (∃ t, exec .wSeek s = .next t ∧ t.answers 0 0 0 [] ∧
      t.writer.cur.toNat =
        (if s.writer.poison = true then s.writer.cur.toNat else min s.a.toNat s.writer.tot.toNat) ∧
      t.writer.buf = s.writer.buf ∧ t.writer.bw = s.writer.bw ∧ t.writer.poison = s.writer.poison ∧
      s.writerFrame t) ∧
    (∃ t, exec .wReset s = .next t ∧ t.answers 0 0 0 [] ∧
      t.writer.cur.toNat = (if s.writer.poison = true then s.writer.cur.toNat else 0) ∧
      t.writer.buf = s.writer.buf ∧ t.writer.bw = s.writer.bw ∧ t.writer.poison = s.writer.poison ∧
      s.writerFrame t)

/-- In every state R.BITSREAD answers RES = R.CUR, W.BITSWRITTEN answers RES = W.BW, and W.BYTESWRITTEN
answers the least number of bytes that holds W.BW bits, each with ST = 0, and nothing else changes. -/
def Obligations.QueriesReportTheCursorAndTheMark : Prop :=
  ∀ s : State,
    (∃ t, exec .rBitsread s = .next t ∧ t.answers 0 0 s.reader.cur [] ∧ s.onlyAnswers t) ∧
    (∃ t, exec .wBitswritten s = .next t ∧ t.answers 0 0 s.writer.bw [] ∧ s.onlyAnswers t) ∧
    (∃ t, exec .wByteswritten s = .next t ∧ t.answers 0 0 t.res [] ∧
      s.writer.bw.toNat ≤ 8 * t.res.toNat ∧ 8 * t.res.toNat < s.writer.bw.toNat + 8 ∧ s.onlyAnswers t)

/-- In every state R.DATA answers the R.LEN bytes of R.BUF in order, whatever R.CUR is, and W.DATA the first
⌈W.BW / 8⌉ bytes of W.BUF as they stand, each with ST = 0, and nothing else changes. -/
def Obligations.DataQueriesReturnTheBytes : Prop :=
  ∀ s : State,
    (∃ t, exec .rData s = .next t ∧ t.answers 0 0 0 t.out ∧ t.out.length = s.reader.len.toNat ∧
      (∀ k, k < s.reader.len.toNat → t.out.getD k 0 = s.reader.buf.read k) ∧ s.onlyAnswers t) ∧
    (∃ t, exec .wData s = .next t ∧ t.answers 0 0 0 t.out ∧
      s.writer.bw.toNat ≤ 8 * t.out.length ∧ 8 * t.out.length < s.writer.bw.toNat + 8 ∧
      (∀ k, k < t.out.length → t.out.getD k 0 = s.writer.buf.read k) ∧ s.onlyAnswers t)

/-- Every step that answers a next state, a block reset included, leaves RBUF_MAX_BYTES, WBUF_MAX_BYTES and
IN_MAX_BYTES as they were. That the parameters are held in the state is the model's form (log 3), and that a
block reset keeps them is the model's choice (log 9). -/
def Obligations.NoStepChangesTheLimits : Prop :=
  ∀ s t : State, step s = .next t → t.limits = s.limits
end

