-- ==== Sys2Proof/Laws/Bits.lean ====
section
/-! SUPPORT. What the helpers of Machine/Bits.lean do, bit by bit. -/

namespace Sys2Proof.Machine

theorem ceil8_mul (k : Nat) : ceil8 (8 * k) = k := by unfold ceil8; omega

theorem le_ceil8 (n : Nat) : n ≤ 8 * ceil8 n := by unfold ceil8; omega

theorem ceil8_le_iff (n k : Nat) : ceil8 n ≤ k ↔ n ≤ 8 * k := by unfold ceil8; omega

@[simp] theorem zext64_getLsbD (v j : Nat) : (zext64 v).getLsbD j = (decide (j < 64) && v.testBit j) := by
  simp [zext64, BitVec.getLsbD_ofNat]

/-- Sign extension copies bit n − 1 into every higher bit (R9, R110). -/
theorem sext64_getLsbD (n v j : Nat) (hn : 0 < n) (hj : j < 64) :
    (sext64 n v).getLsbD j = v.testBit (min j (n - 1)) := by
  unfold sext64
  rw [BitVec.getLsbD_signExtend, BitVec.msb_eq_getLsbD_last]
  by_cases h : j < n
  · have : min j (n - 1) = j := by omega
    simp only [hj, h, decide_true, Bool.true_and, if_true, this, BitVec.getLsbD_ofNat]
  · have h1 : min j (n - 1) = n - 1 := by omega
    have h2 : n - 1 < n := by omega
    simp only [hj, h, decide_true, Bool.true_and, if_false, h1, h2, BitVec.getLsbD_ofNat]

@[simp] theorem leNat_nil : leNat [] = 0 := rfl

@[simp] theorem leNat_cons (b : Byte) (s : List Byte) : leNat (b :: s) = b.toNat + 256 * leNat s := rfl

/-- A little-endian value fits in 8 bits for each byte. -/
theorem leNat_lt (s : List Byte) : leNat s < 2 ^ (8 * s.length) := by
  induction s with
  | nil => simp
  | cons b s ih =>
    have hb := b.isLt
    have : 2 ^ (8 * (b :: s).length) = 256 * 2 ^ (8 * s.length) := by
      rw [List.length_cons, Nat.mul_add, Nat.pow_add]; ring
    rw [leNat_cons, this]
    omega

/-- Bits 8k to 8k + 7 of a little-endian value are those of byte k (R10); above the bytes they are 0. -/
theorem leNat_testBit (s : List Byte) (k j : Nat) (hj : j < 8) :
    (leNat s).testBit (8 * k + j) = (s.getD k 0).getLsbD j := by
  induction s generalizing k with
  | nil => simp
  | cons b s ih =>
    have hb : b.toNat < 2 ^ 8 := b.isLt
    have e : leNat (b :: s) = 2 ^ 8 * leNat s + b.toNat := by rw [leNat_cons]; omega
    rw [e, Nat.testBit_two_pow_mul_add (leNat s) hb]
    cases k with
    | zero => simp [hj, BitVec.getLsbD]
    | succ k =>
      have h1 : ¬ (8 * (k + 1) + j < 8) := by omega
      have h2 : 8 * (k + 1) + j - 8 = 8 * k + j := by omega
      rw [if_neg h1, h2, ih k]
      simp

@[simp] theorem leBytes_length (k v : Nat) : (leBytes k v).length = k := by
  induction k generalizing v with
  | zero => rfl
  | succ k ih => simp [leBytes, ih]

/-- Byte i of LEbytes_k(v) is v[8i+7:8i] (R10). -/
theorem leBytes_getD (k v i : Nat) (hi : i < k) :
    (leBytes k v).getD i 0 = BitVec.ofNat 8 (v / 2 ^ (8 * i)) := by
  induction k generalizing v i with
  | zero => omega
  | succ k ih =>
    cases i with
    | zero => simp [leBytes]
    | succ i =>
      have e : v / 256 / 2 ^ (8 * i) = v / 2 ^ (8 * (i + 1)) := by
        rw [Nat.div_div_eq_div_mul, Nat.mul_add, Nat.pow_add, Nat.mul_comm (2 ^ (8 * i))]
      rw [leBytes, List.getD_cons_succ, ih (v / 256) i (by omega), e]

theorem leBytes_bit (k v i j : Nat) (hi : i < k) (hj : j < 8) :
    ((leBytes k v).getD i 0).getLsbD j = v.testBit (8 * i + j) := by
  rw [leBytes_getD k v i hi, BitVec.getLsbD_ofNat, Nat.testBit_div_two_pow, Nat.add_comm j]
  simp only [hj, decide_true, Bool.true_and]

end Sys2Proof.Machine
end

