-- ==== Sys2Proof/Laws/Memory.lean ====
section
/-! SUPPORT. The laws of the buffers: reading after writing, the canonical form that every operation
keeps, and what MemRead and MemWrite do bit by bit (spec/20_memory.md R52, R60). -/

namespace Sys2Proof.Machine

/-! ## The canonical form -/

theorem Memory.wf_cons (k : Nat) (b : Byte) (m : Memory) :
    Memory.wf ((k, b) :: m) = true ↔ b ≠ 0 ∧ (∀ c ∈ m, k < c.1) ∧ Memory.wf m = true := by
  simp [Memory.wf, and_assoc]

theorem Memory.read_of_forall_ne (m : Memory) (i : Nat) (h : ∀ c ∈ m, c.1 ≠ i) : m.read i = 0 := by
  induction m with
  | nil => rfl
  | cons c m ih =>
    obtain ⟨k, b⟩ := c
    have hk : k ≠ i := h (k, b) (by simp)
    simp only [Memory.read, if_neg hk]
    exact ih (fun c hc => h c (by simp [hc]))

/-- Every index of the written memory is the written one or an old one. -/
theorem Memory.mem_write (m : Memory) (i : Nat) (v : Byte) (c : Host.Cell) (h : c ∈ m.write i v) :
    (c.1 = i ∧ c.2 = v) ∨ c ∈ m := by
  induction m with
  | nil => simp only [Memory.write] at h; split at h <;> simp_all
  | cons d m ih =>
    obtain ⟨k, b⟩ := d
    simp only [Memory.write] at h
    split at h
    · split at h
      · exact .inr h
      · rcases List.mem_cons.1 h with rfl | h
        · exact .inl ⟨rfl, rfl⟩
        · exact .inr h
    · split at h
      · split at h
        · exact .inr (List.mem_cons_of_mem _ h)
        · rcases List.mem_cons.1 h with rfl | h
          · exact .inl ⟨rfl, rfl⟩
          · exact .inr (List.mem_cons_of_mem _ h)
      · simp only [List.mem_cons] at h ⊢
        rcases h with h | h
        · tauto
        · rcases ih h with h | h <;> tauto

/-- A write keeps the canonical form. -/
theorem Memory.write_wf (m : Memory) (i : Nat) (v : Byte) (h : m.wf = true) : (m.write i v).wf = true := by
  induction m with
  | nil => simp only [Memory.write]; split <;> simp_all [Memory.wf]
  | cons d m ih =>
    obtain ⟨k, b⟩ := d
    obtain ⟨hb, hk, hm⟩ := (Memory.wf_cons k b m).1 h
    simp only [Memory.write]
    split
    · next hik =>
      split
      · exact h
      · next hv =>
        refine (Memory.wf_cons i v _).2 ⟨hv, ?_, h⟩
        intro c hc
        rcases List.mem_cons.1 hc with rfl | hc
        · exact hik
        · exact Nat.lt_trans hik (hk c hc)
    · split
      · next hik =>
        subst hik
        split
        · exact hm
        · next hv => exact (Memory.wf_cons i v _).2 ⟨hv, hk, hm⟩
      · next h1 h2 =>
        refine (Memory.wf_cons k b _).2 ⟨hb, ?_, ih hm⟩
        intro c hc
        rcases Memory.mem_write m i v c hc with ⟨h3, _⟩ | h3
        · omega
        · exact hk c h3

/-- A write below n keeps the buffer within n bytes. -/
theorem Memory.write_within (m : Memory) (i n : Nat) (v : Byte) (h : m.within n = true) (hi : i < n) :
    (m.write i v).within n = true := by
  simp only [Memory.within, List.all_eq_true, decide_eq_true_eq] at h ⊢
  intro c hc
  rcases Memory.mem_write m i v c hc with ⟨h3, _⟩ | h3
  · omega
  · exact h c h3

theorem Memory.read_of_not_within (m : Memory) (i n : Nat) (h : m.within n = true) (hi : n ≤ i) :
    m.read i = 0 := by
  refine Memory.read_of_forall_ne m i (fun c hc => ?_)
  simp only [Memory.within, List.all_eq_true, decide_eq_true_eq] at h
  have := h c hc
  omega

/-! ## Reading after writing -/

/-- A read of the byte just written gives the value written. -/
theorem Memory.read_write_same (m : Memory) (i : Nat) (v : Byte) (h : m.wf = true) :
    (m.write i v).read i = v := by
  induction m with
  | nil => simp only [Memory.write]; split <;> simp_all [Memory.read]
  | cons d m ih =>
    obtain ⟨k, b⟩ := d
    obtain ⟨hb, hk, hm⟩ := (Memory.wf_cons k b m).1 h
    have hne : ∀ c ∈ m, c.1 ≠ k := fun c hc => by have := hk c hc; omega
    simp only [Memory.write]
    split
    · next hik =>
      split
      · next hv =>
        rw [hv]
        refine Memory.read_of_forall_ne _ i (fun c hc => ?_)
        rcases List.mem_cons.1 hc with rfl | hc
        · exact Nat.ne_of_gt hik
        · have := hk c hc; omega
      · simp [Memory.read]
    · split
      · next hik =>
        subst hik
        split
        · next hv => rw [hv]; exact Memory.read_of_forall_ne m i hne
        · simp [Memory.read]
      · next h1 h2 =>
        simp only [Memory.read, if_neg (show ¬ k = i from fun e => h2 e.symm)]
        exact ih hm

/-- A write leaves every other byte as it was. -/
theorem Memory.read_write_other (m : Memory) (i j : Nat) (v : Byte) (hij : i ≠ j) :
    (m.write i v).read j = m.read j := by
  induction m with
  | nil => simp only [Memory.write]; split <;> simp_all [Memory.read]
  | cons d m ih =>
    obtain ⟨k, b⟩ := d
    simp only [Memory.write]
    split
    · split <;> simp [Memory.read, hij]
    · split
      · next hik =>
        subst hik
        split <;> simp [Memory.read, hij]
      · simp only [Memory.read, ih]

/-- Equal contents are equal data: two buffers in canonical form that read alike are the same list. -/
theorem Memory.ext_of_wf (m q : Memory) (hm : m.wf = true) (hq : q.wf = true)
    (h : ∀ i, m.read i = q.read i) : m = q := by
  induction m generalizing q with
  | nil =>
    cases q with
    | nil => rfl
    | cons d q =>
      obtain ⟨k, b⟩ := d
      have := h k
      simp only [Memory.read, if_true] at this
      exact absurd this.symm ((Memory.wf_cons k b q).1 hq).1
  | cons c m ih =>
    obtain ⟨j, a⟩ := c
    obtain ⟨ha, hj, hm'⟩ := (Memory.wf_cons j a m).1 hm
    cases q with
    | nil =>
      have := h j
      simp only [Memory.read, if_true] at this
      exact absurd this ha
    | cons d q =>
      obtain ⟨k, b⟩ := d
      obtain ⟨hb, hk, hq'⟩ := (Memory.wf_cons k b q).1 hq
      have low (n : Memory) (x y : Nat) (hn : ∀ c ∈ n, x < c.1) (hy : y ≤ x) : n.read y = 0 :=
        Memory.read_of_forall_ne n y (fun c hc => by have := hn c hc; omega)
      have hjk : j = k := by
        have h1 := h j
        have h2 := h k
        simp only [Memory.read, if_true] at h1 h2
        by_cases e : j = k
        · exact e
        · rw [if_neg (Ne.symm e)] at h1
          rw [if_neg e] at h2
          rcases Nat.lt_or_gt_of_ne e with hlt | hgt
          · exact absurd (h1.trans (low q k j hk (by omega))) ha
          · exact absurd (h2.symm.trans (low m j k hj (by omega))) hb
      subst hjk
      have hab : a = b := by simpa [Memory.read] using h j
      subst hab
      have htail : ∀ i, Memory.read m i = Memory.read q i := by
        intro i
        by_cases e : j = i
        · subst e; rw [low m j j hj le_rfl, low q j j hk le_rfl]
        · simpa [Memory.read, e] using h i
      rw [ih q hm' hq' htail]

/-! ## Copies and views -/

theorem Memory.ofBytesFrom_index (s : List Byte) (k : Nat) :
    ∀ c ∈ Memory.ofBytesFrom k s, k ≤ c.1 ∧ c.1 < k + s.length := by
  induction s generalizing k with
  | nil => simp [Memory.ofBytesFrom]
  | cons b s ih =>
    intro c hc
    simp only [Memory.ofBytesFrom] at hc
    have tail : ∀ c ∈ Memory.ofBytesFrom (k + 1) s, k ≤ c.1 ∧ c.1 < k + (b :: s).length := by
      intro c hc
      have := ih (k + 1) c hc
      simp only [List.length_cons]
      omega
    split at hc
    · exact tail c hc
    · rcases List.mem_cons.1 hc with rfl | hc
      · simp
      · exact tail c hc

theorem Memory.ofBytesFrom_wf (s : List Byte) (k : Nat) : (Memory.ofBytesFrom k s).wf = true := by
  induction s generalizing k with
  | nil => rfl
  | cons b s ih =>
    simp only [Memory.ofBytesFrom]
    split
    · exact ih (k + 1)
    · next hb =>
      refine (Memory.wf_cons k b _).2 ⟨hb, fun c hc => ?_, ih (k + 1)⟩
      have := Memory.ofBytesFrom_index s (k + 1) c hc
      omega

/-- A copy of a byte sequence is in canonical form. -/
theorem Memory.ofBytes_wf (s : List Byte) : (Memory.ofBytes s).wf = true := Memory.ofBytesFrom_wf s 0

theorem Memory.ofBytes_within (s : List Byte) : (Memory.ofBytes s).within s.length = true := by
  simp only [Memory.within, List.all_eq_true, decide_eq_true_eq]
  intro c hc
  have := Memory.ofBytesFrom_index s 0 c hc
  omega

theorem Memory.ofBytesFrom_read (s : List Byte) (k i : Nat) :
    (Memory.ofBytesFrom k s).read (k + i) = s.getD i 0 := by
  induction s generalizing k i with
  | nil => simp [Memory.ofBytesFrom, Memory.read]
  | cons b s ih =>
    cases i with
    | zero =>
      simp only [Memory.ofBytesFrom]
      split
      · next hb =>
        rw [Nat.add_zero, List.getD_cons_zero, hb]
        refine Memory.read_of_forall_ne _ k (fun c hc => ?_)
        have := Memory.ofBytesFrom_index s (k + 1) c hc
        omega
      · simp [Memory.read]
    | succ i =>
      have e : k + (i + 1) = k + 1 + i := by omega
      have hne : ¬ k = k + 1 + i := by omega
      simp only [Memory.ofBytesFrom]
      split
      · rw [e, ih]; simp
      · rw [e]; simp only [Memory.read, if_neg hne, ih]; simp

/-- A copy of a byte sequence holds its bytes, and 0 past its end. -/
@[simp] theorem Memory.ofBytes_read (s : List Byte) (i : Nat) : (Memory.ofBytes s).read i = s.getD i 0 := by
  have h := Memory.ofBytesFrom_read s 0 i
  rwa [Nat.zero_add] at h

@[simp] theorem Memory.bytes_length (m : Memory) (k n : Nat) : (m.bytes k n).length = n := by
  induction n generalizing k with
  | zero => rfl
  | succ n ih => simp [Memory.bytes, ih]

theorem Memory.bytes_getD (m : Memory) (k n i : Nat) (hi : i < n) :
    (m.bytes k n).getD i 0 = m.read (k + i) := by
  induction n generalizing k i with
  | zero => omega
  | succ n ih =>
    cases i with
    | zero => simp [Memory.bytes]
    | succ i =>
      rw [Memory.bytes, List.getD_cons_succ, ih (k + 1) i (by omega)]
      congr 1; omega

/-! ## Bits -/

theorem Memory.setBit_wf (m : Memory) (j : Nat) (v : Bool) (h : m.wf = true) : (m.setBit j v).wf = true :=
  Memory.write_wf m _ _ h

theorem Memory.setBit_within (m : Memory) (j n : Nat) (v : Bool) (h : m.within n = true)
    (hj : j < 8 * n) : (m.setBit j v).within n = true :=
  Memory.write_within m _ n _ h (by omega)

theorem setBit_byte (b : Byte) (i j : Nat) (v : Bool) (hi : i < 8) (hj : j < 8) :
    (if v then b ||| (1#8 <<< i) else b &&& ~~~(1#8 <<< i)).getLsbD j =
      if j = i then v else b.getLsbD j := by
  have key : (1#8 <<< i).getLsbD j = decide (j = i) := by
    have : ∀ i < 8, ∀ j < 8, (1#8 <<< i).getLsbD j = decide (j = i) := by decide
    exact this i hi j hj
  cases v
  · rw [if_neg Bool.false_ne_true, BitVec.getLsbD_and, BitVec.getLsbD_not, key]
    by_cases h : j = i <;> simp only [h, hi, hj, decide_true, decide_false] <;> simp
  · rw [if_pos rfl, BitVec.getLsbD_or, key]
    by_cases h : j = i <;> simp only [h, decide_true, decide_false] <;> simp

/-- Setting a bit changes that bit alone. -/
theorem Memory.bit_setBit (m : Memory) (i j : Nat) (v : Bool) (h : m.wf = true) :
    (m.setBit i v).bit j = if j = i then v else m.bit j := by
  unfold Memory.bit Memory.setBit
  by_cases hb : i / 8 = j / 8
  · have hi : i % 8 < 8 := Nat.mod_lt _ (by omega)
    have hj : j % 8 < 8 := Nat.mod_lt _ (by omega)
    have hiff : (j % 8 = i % 8) = (j = i) := by
      apply propext; constructor <;> intro _ <;> omega
    rw [← hb, Memory.read_write_same m _ _ h, setBit_byte (m.read (i / 8)) (i % 8) (j % 8) v hi hj]
    simp only [hiff]
  · have hne : ¬ j = i := fun e => hb (by rw [e])
    rw [Memory.read_write_other m _ _ _ hb, if_neg hne]

/-- Setting a bit leaves the other bytes as they were. -/
theorem Memory.read_setBit_other (m : Memory) (i a : Nat) (v : Bool) (h : i / 8 ≠ a) :
    (m.setBit i v).read a = m.read a :=
  Memory.read_write_other m _ _ _ h

/-- Two buffers in canonical form with the same bits are the same list. -/
theorem Memory.ext_of_bit (m q : Memory) (hm : m.wf = true) (hq : q.wf = true)
    (h : ∀ j, m.bit j = q.bit j) : m = q := by
  refine Memory.ext_of_wf m q hm hq (fun i => ?_)
  refine BitVec.eq_of_getLsbD_eq (fun j hj => ?_)
  have := h (8 * i + j)
  unfold Memory.bit at this
  have e1 : (8 * i + j) / 8 = i := by omega
  have e2 : (8 * i + j) % 8 = j := by omega
  rwa [e1, e2] at this

/-! ## MemRead and MemWrite -/

theorem memRead_lt (m : Memory) (pos n : Nat) : memRead m pos n < 2 ^ n := by
  induction n generalizing pos with
  | zero => simp [memRead]
  | succ n ih =>
    have h1 := ih (pos + 1)
    have h2 : (m.bit pos).toNat < 2 := by cases m.bit pos <;> simp
    rw [memRead, Nat.pow_succ]
    omega

/-- Bit i of MemRead(U, pos, n) is BIT(U, pos + i) (R52). -/
theorem memRead_testBit (m : Memory) (pos n i : Nat) :
    (memRead m pos n).testBit i = (decide (i < n) && m.bit (pos + i)) := by
  induction n generalizing pos i with
  | zero => simp [memRead]
  | succ n ih =>
    cases i with
    | zero => cases h : m.bit pos <;> simp [memRead, h, Nat.testBit_zero]
    | succ i =>
      have e : ((m.bit pos).toNat + 2 * memRead m (pos + 1) n) / 2 = memRead m (pos + 1) n := by
        cases m.bit pos <;> simp only [Bool.toNat_true, Bool.toNat_false] <;> omega
      rw [memRead, Nat.testBit_succ, e, ih]
      simp [Nat.add_assoc, Nat.add_comm 1 i]

theorem memWrite_wf (m : Memory) (pos n v : Nat) (h : m.wf = true) : (memWrite m pos n v).wf = true := by
  induction n generalizing m pos v with
  | zero => exact h
  | succ n ih => exact ih _ _ _ (Memory.setBit_wf m _ _ h)

theorem memWrite_within (m : Memory) (pos n v len : Nat) (h : m.within len = true)
    (hp : pos + n ≤ 8 * len) : (memWrite m pos n v).within len = true := by
  induction n generalizing m pos v with
  | zero => exact h
  | succ n ih => exact ih _ _ _ (Memory.setBit_within m _ len _ h (by omega)) (by omega)

/-- MemWrite sets bit pos + i to v[i] for i < n and changes no other bit (R60). -/
theorem memWrite_bit (m : Memory) (pos n v j : Nat) (h : m.wf = true) :
    (memWrite m pos n v).bit j = if pos ≤ j ∧ j < pos + n then v.testBit (j - pos) else m.bit j := by
  induction n generalizing m pos v with
  | zero => simp only [memWrite]; rw [if_neg (by omega)]
  | succ n ih =>
    rw [memWrite, ih _ _ _ (Memory.setBit_wf m _ _ h), Memory.bit_setBit m _ _ _ h]
    by_cases h1 : j = pos
    · subst h1
      rw [if_neg (by omega), if_pos rfl, if_pos (by omega), Nat.sub_self]
    · by_cases h2 : pos + 1 ≤ j ∧ j < pos + 1 + n
      · have e : j - pos = (j - (pos + 1)) + 1 := by omega
        rw [if_pos h2, if_pos (by omega), e, Nat.testBit_succ]
      · rw [if_neg h2, if_neg h1, if_neg (by omega)]

/-- MemWrite leaves every byte wholly outside the field as it was. -/
theorem memWrite_read_other (m : Memory) (pos n v a : Nat)
    (ha : 8 * a + 8 ≤ pos ∨ pos + n ≤ 8 * a) : (memWrite m pos n v).read a = m.read a := by
  induction n generalizing m pos v with
  | zero => rfl
  | succ n ih =>
    rw [memWrite, ih _ _ _ (by omega), Memory.read_setBit_other m _ _ _ (by omega)]

end Sys2Proof.Machine
end

