-- ==== Sys2Proof/Laws/State.lean ====
section
/-! SUPPORT. One lemma per field for each update of State, so that no proof unfolds a record update. -/

namespace Sys2Proof.Machine

/-! ## respond -/

@[simp] theorem respond_reader (r : Word64) (o : List Byte) (s : State) :
    (respond r o s).reader = s.reader := rfl
@[simp] theorem respond_writer (r : Word64) (o : List Byte) (s : State) :
    (respond r o s).writer = s.writer := rfl
@[simp] theorem respond_cmd (r : Word64) (o : List Byte) (s : State) :
    (respond r o s).cmd = s.cmd := rfl
@[simp] theorem respond_a (r : Word64) (o : List Byte) (s : State) :
    (respond r o s).a = s.a := rfl
@[simp] theorem respond_inp (r : Word64) (o : List Byte) (s : State) :
    (respond r o s).inp = s.inp := rfl
@[simp] theorem respond_st (r : Word64) (o : List Byte) (s : State) :
    (respond r o s).st = 0 := rfl
@[simp] theorem respond_ovf (r : Word64) (o : List Byte) (s : State) :
    (respond r o s).ovf = 0 := rfl
@[simp] theorem respond_res (r : Word64) (o : List Byte) (s : State) :
    (respond r o s).res = r := rfl
@[simp] theorem respond_out (r : Word64) (o : List Byte) (s : State) :
    (respond r o s).out = o := rfl
@[simp] theorem respond_responded (r : Word64) (o : List Byte) (s : State) :
    (respond r o s).responded = true := rfl
@[simp] theorem respond_pending (r : Word64) (o : List Byte) (s : State) :
    (respond r o s).pending = s.pending := rfl
@[simp] theorem respond_limits (r : Word64) (o : List Byte) (s : State) :
    (respond r o s).limits = s.limits := rfl

/-! ## respondError -/

@[simp] theorem respondError_reader (e : ErrorKind) (s : State) :
    (respondError e s).reader = s.reader := rfl
@[simp] theorem respondError_writer (e : ErrorKind) (s : State) :
    (respondError e s).writer = s.writer := rfl
@[simp] theorem respondError_cmd (e : ErrorKind) (s : State) :
    (respondError e s).cmd = s.cmd := rfl
@[simp] theorem respondError_a (e : ErrorKind) (s : State) :
    (respondError e s).a = s.a := rfl
@[simp] theorem respondError_inp (e : ErrorKind) (s : State) :
    (respondError e s).inp = s.inp := rfl
@[simp] theorem respondError_st (e : ErrorKind) (s : State) :
    (respondError e s).st = statusCode e := rfl
@[simp] theorem respondError_ovf (e : ErrorKind) (s : State) :
    (respondError e s).ovf = overflowCode e := rfl
@[simp] theorem respondError_res (e : ErrorKind) (s : State) :
    (respondError e s).res = 0 := rfl
@[simp] theorem respondError_out (e : ErrorKind) (s : State) :
    (respondError e s).out = [] := rfl
@[simp] theorem respondError_responded (e : ErrorKind) (s : State) :
    (respondError e s).responded = true := rfl
@[simp] theorem respondError_pending (e : ErrorKind) (s : State) :
    (respondError e s).pending = s.pending := rfl
@[simp] theorem respondError_limits (e : ErrorKind) (s : State) :
    (respondError e s).limits = s.limits := rfl

/-! ## errorEntry -/

@[simp] theorem errorEntry_reader (u : PortUnit) (e : ErrorKind) (s : State) :
    (errorEntry u e s).reader = s.reader := by
  cases u <;> cases h : poisons e <;> simp [errorEntry, h]
@[simp] theorem errorEntry_writer (u : PortUnit) (e : ErrorKind) (s : State) :
    (errorEntry u e s).writer =
      if u = .writer ∧ poisons e = true then s.writer.pin else s.writer := by
  cases u <;> cases h : poisons e <;> simp [errorEntry, h]
@[simp] theorem errorEntry_cmd (u : PortUnit) (e : ErrorKind) (s : State) :
    (errorEntry u e s).cmd = s.cmd := by
  cases u <;> cases h : poisons e <;> simp [errorEntry, h]
@[simp] theorem errorEntry_a (u : PortUnit) (e : ErrorKind) (s : State) :
    (errorEntry u e s).a = s.a := by
  cases u <;> cases h : poisons e <;> simp [errorEntry, h]
@[simp] theorem errorEntry_inp (u : PortUnit) (e : ErrorKind) (s : State) :
    (errorEntry u e s).inp = s.inp := by
  cases u <;> cases h : poisons e <;> simp [errorEntry, h]
@[simp] theorem errorEntry_st (u : PortUnit) (e : ErrorKind) (s : State) :
    (errorEntry u e s).st = s.st := by
  cases u <;> cases h : poisons e <;> simp [errorEntry, h]
@[simp] theorem errorEntry_ovf (u : PortUnit) (e : ErrorKind) (s : State) :
    (errorEntry u e s).ovf = s.ovf := by
  cases u <;> cases h : poisons e <;> simp [errorEntry, h]
@[simp] theorem errorEntry_res (u : PortUnit) (e : ErrorKind) (s : State) :
    (errorEntry u e s).res = s.res := by
  cases u <;> cases h : poisons e <;> simp [errorEntry, h]
@[simp] theorem errorEntry_out (u : PortUnit) (e : ErrorKind) (s : State) :
    (errorEntry u e s).out = s.out := by
  cases u <;> cases h : poisons e <;> simp [errorEntry, h]
@[simp] theorem errorEntry_responded (u : PortUnit) (e : ErrorKind) (s : State) :
    (errorEntry u e s).responded = s.responded := by
  cases u <;> cases h : poisons e <;> simp [errorEntry, h]
@[simp] theorem errorEntry_pending (u : PortUnit) (e : ErrorKind) (s : State) :
    (errorEntry u e s).pending = s.pending := by
  cases u <;> cases h : poisons e <;> simp [errorEntry, h]
@[simp] theorem errorEntry_limits (u : PortUnit) (e : ErrorKind) (s : State) :
    (errorEntry u e s).limits = s.limits := by
  cases u <;> cases h : poisons e <;> simp [errorEntry, h]

/-! ## raise -/

@[simp] theorem raise_reader (u : PortUnit) (e : ErrorKind) (s : State) :
    (raise u e s).reader = s.reader := by
  simp [raise]
@[simp] theorem raise_writer (u : PortUnit) (e : ErrorKind) (s : State) :
    (raise u e s).writer =
      if u = .writer ∧ poisons e = true then s.writer.pin else s.writer := by
  simp [raise]
@[simp] theorem raise_cmd (u : PortUnit) (e : ErrorKind) (s : State) :
    (raise u e s).cmd = s.cmd := by
  simp [raise]
@[simp] theorem raise_a (u : PortUnit) (e : ErrorKind) (s : State) :
    (raise u e s).a = s.a := by
  simp [raise]
@[simp] theorem raise_inp (u : PortUnit) (e : ErrorKind) (s : State) :
    (raise u e s).inp = s.inp := by
  simp [raise]
@[simp] theorem raise_st (u : PortUnit) (e : ErrorKind) (s : State) :
    (raise u e s).st = statusCode e := by
  simp [raise]
@[simp] theorem raise_ovf (u : PortUnit) (e : ErrorKind) (s : State) :
    (raise u e s).ovf = overflowCode e := by
  simp [raise]
@[simp] theorem raise_res (u : PortUnit) (e : ErrorKind) (s : State) :
    (raise u e s).res = 0 := by
  simp [raise]
@[simp] theorem raise_out (u : PortUnit) (e : ErrorKind) (s : State) :
    (raise u e s).out = [] := by
  simp [raise]
@[simp] theorem raise_responded (u : PortUnit) (e : ErrorKind) (s : State) :
    (raise u e s).responded = true := by
  simp [raise]
@[simp] theorem raise_pending (u : PortUnit) (e : ErrorKind) (s : State) :
    (raise u e s).pending = s.pending := by
  simp [raise]
@[simp] theorem raise_limits (u : PortUnit) (e : ErrorKind) (s : State) :
    (raise u e s).limits = s.limits := by
  simp [raise]

/-- A reader error changes nothing but the response (R245). -/
theorem raise_reader_eq (e : ErrorKind) (s : State) : raise .reader e s = respondError e s := rfl

/-! ## The writer's pin and move -/

@[simp] theorem Writer.pin_cap (w : Writer) : w.pin.cap = w.cap := rfl
@[simp] theorem Writer.pin_buf (w : Writer) : w.pin.buf = w.buf := rfl
@[simp] theorem Writer.pin_tot (w : Writer) : w.pin.tot = w.tot := rfl
@[simp] theorem Writer.pin_cur (w : Writer) : w.pin.cur = w.tot := rfl
@[simp] theorem Writer.pin_bw (w : Writer) : w.pin.bw = w.tot := rfl
@[simp] theorem Writer.pin_poison (w : Writer) : w.pin.poison = true := rfl
@[simp] theorem Writer.moveTo_cap (w : Writer) (p : Word64) : (w.moveTo p).cap = w.cap := by
  unfold Writer.moveTo; split <;> rfl
@[simp] theorem Writer.moveTo_buf (w : Writer) (p : Word64) : (w.moveTo p).buf = w.buf := by
  unfold Writer.moveTo; split <;> rfl
@[simp] theorem Writer.moveTo_tot (w : Writer) (p : Word64) : (w.moveTo p).tot = w.tot := by
  unfold Writer.moveTo; split <;> rfl
@[simp] theorem Writer.moveTo_bw (w : Writer) (p : Word64) : (w.moveTo p).bw = w.bw := by
  unfold Writer.moveTo; split <;> rfl
@[simp] theorem Writer.moveTo_poison (w : Writer) (p : Word64) : (w.moveTo p).poison = w.poison := by
  unfold Writer.moveTo; split <;> rfl
@[simp] theorem Writer.moveTo_cur (w : Writer) (p : Word64) :
    (w.moveTo p).cur = if w.poison = true then w.cur else p := by
  unfold Writer.moveTo; split <;> rfl

/-! ## Construction -/

@[simp] theorem Reader.construct_buf (b : List Byte) : (Reader.construct b).buf = Memory.ofBytes b := rfl
@[simp] theorem Reader.construct_len (b : List Byte) : (Reader.construct b).len = BitVec.ofNat 61 b.length := rfl
@[simp] theorem Reader.construct_tot (b : List Byte) : (Reader.construct b).tot = BitVec.ofNat 64 (8 * b.length) := rfl
@[simp] theorem Reader.construct_cur (b : List Byte) : (Reader.construct b).cur = 0 := rfl
@[simp] theorem Writer.construct_cap (c : Nat) : (Writer.construct c).cap = BitVec.ofNat 61 c := rfl
@[simp] theorem Writer.construct_buf (c : Nat) : (Writer.construct c).buf = [] := rfl
@[simp] theorem Writer.construct_tot (c : Nat) : (Writer.construct c).tot = BitVec.ofNat 64 (8 * c + 32) := rfl
@[simp] theorem Writer.construct_cur (c : Nat) : (Writer.construct c).cur = 0 := rfl
@[simp] theorem Writer.construct_bw (c : Nat) : (Writer.construct c).bw = 0 := rfl
@[simp] theorem Writer.construct_poison (c : Nat) : (Writer.construct c).poison = false := rfl

/-! ## accept -/

@[simp] theorem accept_reader (t : Transaction) (rest : List HostEvent) (s : State) :
    (accept t rest s).reader = s.reader := rfl
@[simp] theorem accept_writer (t : Transaction) (rest : List HostEvent) (s : State) :
    (accept t rest s).writer = s.writer := rfl
@[simp] theorem accept_cmd (t : Transaction) (rest : List HostEvent) (s : State) :
    (accept t rest s).cmd = t.cmd := rfl
@[simp] theorem accept_a (t : Transaction) (rest : List HostEvent) (s : State) :
    (accept t rest s).a = t.a := rfl
@[simp] theorem accept_inp (t : Transaction) (rest : List HostEvent) (s : State) :
    (accept t rest s).inp = t.inp := rfl
@[simp] theorem accept_st (t : Transaction) (rest : List HostEvent) (s : State) :
    (accept t rest s).st = s.st := rfl
@[simp] theorem accept_ovf (t : Transaction) (rest : List HostEvent) (s : State) :
    (accept t rest s).ovf = s.ovf := rfl
@[simp] theorem accept_res (t : Transaction) (rest : List HostEvent) (s : State) :
    (accept t rest s).res = s.res := rfl
@[simp] theorem accept_out (t : Transaction) (rest : List HostEvent) (s : State) :
    (accept t rest s).out = s.out := rfl
@[simp] theorem accept_responded (t : Transaction) (rest : List HostEvent) (s : State) :
    (accept t rest s).responded = s.responded := rfl
@[simp] theorem accept_pending (t : Transaction) (rest : List HostEvent) (s : State) :
    (accept t rest s).pending = rest := rfl
@[simp] theorem accept_limits (t : Transaction) (rest : List HostEvent) (s : State) :
    (accept t rest s).limits = s.limits := rfl

/-! ## blockReset -/

@[simp] theorem blockReset_reader (rest : List HostEvent) (s : State) :
    (blockReset rest s).reader = Reader.empty := rfl
@[simp] theorem blockReset_writer (rest : List HostEvent) (s : State) :
    (blockReset rest s).writer = Writer.empty := rfl
@[simp] theorem blockReset_cmd (rest : List HostEvent) (s : State) :
    (blockReset rest s).cmd = 0 := rfl
@[simp] theorem blockReset_a (rest : List HostEvent) (s : State) :
    (blockReset rest s).a = 0 := rfl
@[simp] theorem blockReset_inp (rest : List HostEvent) (s : State) :
    (blockReset rest s).inp = [] := rfl
@[simp] theorem blockReset_st (rest : List HostEvent) (s : State) :
    (blockReset rest s).st = 0 := rfl
@[simp] theorem blockReset_ovf (rest : List HostEvent) (s : State) :
    (blockReset rest s).ovf = 0 := rfl
@[simp] theorem blockReset_res (rest : List HostEvent) (s : State) :
    (blockReset rest s).res = 0 := rfl
@[simp] theorem blockReset_out (rest : List HostEvent) (s : State) :
    (blockReset rest s).out = [] := rfl
@[simp] theorem blockReset_responded (rest : List HostEvent) (s : State) :
    (blockReset rest s).responded = false := rfl
@[simp] theorem blockReset_pending (rest : List HostEvent) (s : State) :
    (blockReset rest s).pending = rest := rfl
@[simp] theorem blockReset_limits (rest : List HostEvent) (s : State) :
    (blockReset rest s).limits = s.limits := rfl

/-! ## The host's next events -/

@[simp] theorem State.issue_reader (s : State) (es : List HostEvent) : (s.issue es).reader = s.reader := rfl
@[simp] theorem State.issue_writer (s : State) (es : List HostEvent) : (s.issue es).writer = s.writer := rfl
@[simp] theorem State.issue_cmd (s : State) (es : List HostEvent) : (s.issue es).cmd = s.cmd := rfl
@[simp] theorem State.issue_a (s : State) (es : List HostEvent) : (s.issue es).a = s.a := rfl
@[simp] theorem State.issue_inp (s : State) (es : List HostEvent) : (s.issue es).inp = s.inp := rfl
@[simp] theorem State.issue_st (s : State) (es : List HostEvent) : (s.issue es).st = s.st := rfl
@[simp] theorem State.issue_ovf (s : State) (es : List HostEvent) : (s.issue es).ovf = s.ovf := rfl
@[simp] theorem State.issue_res (s : State) (es : List HostEvent) : (s.issue es).res = s.res := rfl
@[simp] theorem State.issue_out (s : State) (es : List HostEvent) : (s.issue es).out = s.out := rfl
@[simp] theorem State.issue_responded (s : State) (es : List HostEvent) : (s.issue es).responded = s.responded := rfl
@[simp] theorem State.issue_pending (s : State) (es : List HostEvent) : (s.issue es).pending = s.pending ++ es := rfl
@[simp] theorem State.issue_limits (s : State) (es : List HostEvent) : (s.issue es).limits = s.limits := rfl
@[simp] theorem presentWord_reader (s : State) (nbits w : Nat) :
    (presentWord s nbits w).reader = s.reader := rfl
@[simp] theorem presentWord_writer (s : State) (nbits w : Nat) :
    (presentWord s nbits w).writer = s.writer := rfl
@[simp] theorem presentWord_cmd (s : State) (nbits w : Nat) :
    (presentWord s nbits w).cmd = s.cmd := rfl
@[simp] theorem presentWord_a (s : State) (nbits w : Nat) :
    (presentWord s nbits w).a = s.a := rfl
@[simp] theorem presentWord_inp (s : State) (nbits w : Nat) :
    (presentWord s nbits w).inp = s.inp := rfl
@[simp] theorem presentWord_st (s : State) (nbits w : Nat) :
    (presentWord s nbits w).st = s.st := rfl
@[simp] theorem presentWord_ovf (s : State) (nbits w : Nat) :
    (presentWord s nbits w).ovf = s.ovf := rfl
@[simp] theorem presentWord_res (s : State) (nbits w : Nat) :
    (presentWord s nbits w).res = s.res := rfl
@[simp] theorem presentWord_out (s : State) (nbits w : Nat) :
    (presentWord s nbits w).out = s.out := rfl
@[simp] theorem presentWord_responded (s : State) (nbits w : Nat) :
    (presentWord s nbits w).responded = s.responded := rfl
@[simp] theorem presentWord_pending (s : State) (nbits w : Nat) :
    (presentWord s nbits w).pending = .command ⟨BitVec.ofNat 32 (w % 2 ^ nbits), 0, []⟩ :: s.pending := rfl
@[simp] theorem presentWord_limits (s : State) (nbits w : Nat) :
    (presentWord s nbits w).limits = s.limits := rfl

end Sys2Proof.Machine
end

