-- ==== Sys2Proof/Laws/Ops.lean ====
section
/-! SUPPORT. What each shared operation can do, said once: the field procedures, the string procedure,
decoding a word, and one step. -/

namespace Sys2Proof.Machine

/-! ## ReadField -/

/-- A read that fits returns MemRead at the cursor and advances it (R100). -/
theorem readField_fits (n : Nat) (s : State) (h : s.readFits n) :
    readField n s = .ok (memRead s.reader.buf s.reader.cur.toNat n,
      { s with reader := { s.reader with cur := BitVec.ofNat 64 (s.reader.cur.toNat + n) } }) := by
  unfold State.readFits at h
  simp only [readField]
  rw [if_neg (by omega)]

/-- A read that does not fit fails by exactly the excess (R101). -/
theorem readField_overrun (n : Nat) (s : State) (h : ¬ s.readFits n) :
    readField n s = .error (.outOfBounds (s.reader.cur.toNat + n - s.reader.tot.toNat)) := by
  unfold State.readFits at h
  simp only [readField]
  rw [if_pos (by omega)]

theorem readRes_fits (n : Nat) (ext : Nat → Word64) (s : State) (h : s.readFits n) :
    readRes n ext s = respond (ext (memRead s.reader.buf s.reader.cur.toNat n)) []
      { s with reader := { s.reader with cur := BitVec.ofNat 64 (s.reader.cur.toNat + n) } } := by
  simp only [readRes, readField_fits n s h]

theorem readRes_overrun (n : Nat) (ext : Nat → Word64) (s : State) (h : ¬ s.readFits n) :
    readRes n ext s =
      respondError (.outOfBounds (s.reader.cur.toNat + n - s.reader.tot.toNat)) s := by
  simp only [readRes, readField_overrun n s h, raise_reader_eq]

theorem readOut_fits (n k : Nat) (s : State) (h : s.readFits n) :
    readOut n k s = respond 0 (leBytes k (memRead s.reader.buf s.reader.cur.toNat n))
      { s with reader := { s.reader with cur := BitVec.ofNat 64 (s.reader.cur.toNat + n) } } := by
  simp only [readOut, readField_fits n s h]

theorem readOut_overrun (n k : Nat) (s : State) (h : ¬ s.readFits n) :
    readOut n k s =
      respondError (.outOfBounds (s.reader.cur.toNat + n - s.reader.tot.toNat)) s := by
  simp only [readOut, readField_overrun n s h, raise_reader_eq]

/-- The cursor register holds the advanced position: no advance wraps (R8). -/
theorem readFits_cur_toNat (n : Nat) (s : State) (h : s.readFits n) :
    (BitVec.ofNat 64 (s.reader.cur.toNat + n)).toNat = s.reader.cur.toNat + n := by
  have := s.reader.tot.isLt
  unfold State.readFits at h
  rw [BitVec.toNat_ofNat]
  exact Nat.mod_eq_of_lt (by omega)

/-! ## WriteField -/

/-- A write that fits stores the field, moves the high-water mark as R107 says and advances (R104). -/
theorem writeData_fits (n v : Nat) (s : State) (h : s.writeFits n) :
    writeData n v s = respond 0 []
      { s with writer :=
        { s.writer with
          buf := memWrite s.writer.buf s.writer.cur.toNat n v
          bw := highWater s.writer.cur s.writer.bw n
          cur := BitVec.ofNat 64 (s.writer.cur.toNat + n) } } := by
  obtain ⟨hp, hf⟩ := h
  simp only [writeData, writeField, hp]
  rw [if_neg (by simp; omega)]

/-- A write that does not fit, or on a poisoned writer, stores nothing, pins and poisons (R105, R246). -/
theorem writeData_overrun (n v : Nat) (s : State) (h : ¬ s.writeFits n) :
    writeData n v s =
      respondError (.outOfBounds (s.writer.cur.toNat + n - s.writer.tot.toNat))
        { s with writer := s.writer.pin } := by
  have h' : s.writer.poison = true ∨ s.writer.tot.toNat < s.writer.cur.toNat + n := by
    unfold State.writeFits at h
    cases hp : s.writer.poison <;> simp_all
  simp only [writeData, writeField]
  rw [if_pos h']
  rfl

theorem writeFits_cur_toNat (n : Nat) (s : State) (h : s.writeFits n) :
    (BitVec.ofNat 64 (s.writer.cur.toNat + n)).toNat = s.writer.cur.toNat + n := by
  have := s.writer.tot.isLt
  have := h.2
  rw [BitVec.toNat_ofNat]
  exact Nat.mod_eq_of_lt (by omega)

/-! ## ReadString -/

/-- What the string loop does (R134), when it has turns enough: it appends the bytes `bs` before the first
zero byte, the limit or the end; each of them passed the loop's test; and it stops either at a zero byte,
which is consumed, or where the test fails. -/
theorem readStringLoop_spec (m : Memory) (tot : Nat) (limit : Option Nat) (turns k cur : Nat)
    (out : List Byte) (ht : tot < cur + 8 * turns + 8) :
    ∃ bs : List Byte,
      (readStringLoop m tot limit turns k cur out).1 = out ++ bs ∧
      (∀ i, i < bs.length → bs.getD i 0 = BitVec.ofNat 8 (memRead m (cur + 8 * i) 8) ∧
        bs.getD i 0 ≠ 0 ∧ belowLimit limit (k + i) = true ∧ cur + 8 * i + 8 ≤ tot) ∧
      (((readStringLoop m tot limit turns k cur out).2 = cur + 8 * (bs.length + 1) ∧
          BitVec.ofNat 8 (memRead m (cur + 8 * bs.length) 8) = 0 ∧
          belowLimit limit (k + bs.length) = true ∧ cur + 8 * bs.length + 8 ≤ tot) ∨
        ((readStringLoop m tot limit turns k cur out).2 = cur + 8 * bs.length ∧
          ¬ (belowLimit limit (k + bs.length) = true ∧ cur + 8 * bs.length + 8 ≤ tot))) := by
  induction turns generalizing k cur out with
  | zero =>
    refine ⟨[], by simp [readStringLoop], by simp, .inr ⟨by simp [readStringLoop], ?_⟩⟩
    rintro ⟨_, h⟩
    simp at h
    omega
  | succ turns ih =>
    by_cases hc : belowLimit limit k = true ∧ cur + 8 ≤ tot
    · by_cases hb : BitVec.ofNat 8 (memRead m cur 8) = 0
      · have e : readStringLoop m tot limit (turns + 1) k cur out = (out, cur + 8) := by
          simp only [readStringLoop]; rw [if_pos hc, if_pos hb]
        exact ⟨[], by simp [e], by simp, .inl ⟨by simp [e], by simpa using hb, by simpa using hc⟩⟩
      · have e : readStringLoop m tot limit (turns + 1) k cur out =
            readStringLoop m tot limit turns (k + 1) (cur + 8)
              (out ++ [BitVec.ofNat 8 (memRead m cur 8)]) := by
          simp only [readStringLoop]; rw [if_pos hc, if_neg hb]
        obtain ⟨bs, h1, h2, h3⟩ := ih (k + 1) (cur + 8) (out ++ [BitVec.ofNat 8 (memRead m cur 8)])
          (by omega)
        have s1 : k + 1 + bs.length = k + (bs.length + 1) := by omega
        have s2 : cur + 8 + 8 * bs.length = cur + 8 * (bs.length + 1) := by omega
        refine ⟨BitVec.ofNat 8 (memRead m cur 8) :: bs, by rw [e, h1]; simp, ?_, ?_⟩
        · intro i hi
          cases i with
          | zero => exact ⟨by simp, by simpa using hb, by simpa using hc⟩
          | succ i =>
            have := h2 i (by simpa using hi)
            have e1 : k + 1 + i = k + (i + 1) := by omega
            have e2 : cur + 8 + 8 * i = cur + 8 * (i + 1) := by omega
            rw [e1, e2] at this
            simpa using this
        · rw [e, List.length_cons, ← s1, ← s2]
          rcases h3 with ⟨h3, h4⟩ | ⟨h3, h4⟩
          · exact .inl ⟨by rw [h3]; omega, h4⟩
          · exact .inr ⟨h3, h4⟩
    · have e : readStringLoop m tot limit (turns + 1) k cur out = (out, cur) := by
        simp only [readStringLoop]; rw [if_neg hc]
      exact ⟨[], by simp [e], by simp, .inr ⟨by simp [e], by simpa using hc⟩⟩

/-! ## Decoding and one step -/

/-- A word decodes only if RSV is 0, and then as its OP and WID say (R76 to R79). -/
theorem decode_eq_ok_iff (cmd : Word) (i : Instr) :
    decode cmd = .ok i ↔
      cmdRsv cmd = 0 ∧ decodeOp (cmdOp cmd).toNat (cmdWid cmd).toNat = .ok i := by
  unfold decode
  split <;> simp_all

/-- Everything one step can do. -/
theorem step_cases (s t : State) (h : step s = .next t) :
    (s.pending = [] ∧ t = s) ∨
    (∃ rest, s.pending = .blockReset :: rest ∧ t = blockReset rest s) ∨
    (∃ x rest i, s.pending = .command x :: rest ∧ portAccepts s.limits x = true ∧
      decode x.cmd = .ok i ∧ exec i (accept x rest s) = .next t) ∨
    (∃ x rest e, s.pending = .command x :: rest ∧ portAccepts s.limits x = true ∧
      decode x.cmd = .error e ∧ t = respondError .illegalCommand (accept x rest s)) := by
  unfold step at h
  cases hp : s.pending with
  | nil =>
    rw [hp] at h
    exact .inl ⟨rfl, (Host.Outcome.next.inj h).symm⟩
  | cons ev rest =>
    rw [hp] at h
    cases ev with
    | blockReset => exact .inr (.inl ⟨rest, rfl, (Host.Outcome.next.inj h).symm⟩)
    | command x =>
      refine .inr (.inr ?_)
      simp only at h
      split at h
      · next ha =>
        unfold runCommand at h
        rw [accept_cmd] at h
        cases hd : decode x.cmd with
        | ok i => rw [hd] at h; exact .inl ⟨x, rest, i, rfl, ha, hd, h⟩
        | error e => rw [hd] at h; exact .inr ⟨x, rest, e, rfl, ha, hd, (Host.Outcome.next.inj h).symm⟩
      · cases h

end Sys2Proof.Machine
end

