-- ==== Sys2Proof/Laws/Exec.lean ====
section
/-! SUPPORT. What a command can do, said once over all 42: the case split that later proofs use in place of
unfolding each meaning. -/

namespace Sys2Proof.Machine

theorem unsupportedWidth_bounds {w : Nat} (h : ¬ supportedWidth w = true) : w = 0 ∨ 64 < w := by
  have h' : ¬ (1 ≤ w ∧ w ≤ 64) := fun hc => h (decide_eq_true hc)
  omega

/-- The position W.SEEK moves to is at most W.TOT (R203). -/
theorem seekClamp_le (s : State) :
    (BitVec.ofNat 64 (min (countA s) s.writer.tot.toNat)).toNat ≤ s.writer.tot.toNat := by
  rw [BitVec.toNat_ofNat]
  exact Nat.le_trans (Nat.mod_le _ _) (Nat.min_le_right _ _)

/-- The states that command i can reach from s, by what it did: one read to RES, one read to OUT, one string
read, one write, an error of the width, of the length of IN or of a limit, a construction, a cursor move,
or a query. -/
inductive ExecCase (i : Instr) (s : State) : State → Prop
  | toRes (n : Nat) (ext : Nat → Word64) (hu : unitOf i = .reader) (hn : accessBits i s = some n) :
      ExecCase i s (readRes n ext s)
  | toOut (n k : Nat) (hu : unitOf i = .reader) (hn : accessBits i s = some n) :
      ExecCase i s (readOut n k s)
  | str (limit : Option Nat) (hi : i = .rRdstr ∨ i = .rRdstrm) : ExecCase i s (readStr limit s)
  | write (n v : Nat) (hu : unitOf i = .writer) (hn : accessBits i s = some n) :
      ExecCase i s (writeData n v s)
  | readWidth (w : Nat) (hw : w = 0 ∨ 64 < w) (hi : i = .rRdbits w ∨ i = .rRdsbits w) :
      ExecCase i s (respondError .unsupportedWidth s)
  | writeWidth (w : Nat) (hw : w = 0 ∨ 64 < w) (hi : i = .wWrbits w ∨ i = .wWrsbits w) :
      ExecCase i s (respondError .unsupportedWidth { s with writer := s.writer.pin })
  | runLength (hi : i = .wWrrun) (hl : lengthIn s ≠ ceil8 (countA s)) :
      ExecCase i s (respondError .illegalCommand s)
  | readerLimit (hi : i = .rNew) (hl : s.limits.rbufMaxBytes.toNat < s.inp.length) :
      ExecCase i s (respondError .resourceLimit s)
  | newReader (hi : i = .rNew) (hl : s.inp.length ≤ s.limits.rbufMaxBytes.toNat) :
      ExecCase i s (respond 0 [] { s with reader := Reader.construct s.inp })
  | writerLimit (hi : i = .wNew) (hl : s.limits.wbufMaxBytes.toNat < s.a.toNat + 4) :
      ExecCase i s (respondError .resourceLimit s)
  | newWriter (hi : i = .wNew) (hl : s.a.toNat + 4 ≤ s.limits.wbufMaxBytes.toNat) :
      ExecCase i s (respond 0 [] { s with writer := Writer.construct s.a.toNat })
  | moveReader (p : Word64) (hi : i = .rSeek ∨ i = .rReset) :
      ExecCase i s (respond 0 [] { s with reader := { s.reader with cur := p } })
  | moveWriter (p : Word64) (hi : i = .wSeek ∨ i = .wReset) (hp : p.toNat ≤ s.writer.tot.toNat) :
      ExecCase i s (respond 0 [] { s with writer := s.writer.moveTo p })
  | query (r : Word64) (o : List Byte)
      (hi : i = .rBitsread ∨ i = .rData ∨ i = .wBitswritten ∨ i = .wByteswritten ∨ i = .wData) :
      ExecCase i s (respond r o s)

/-- Every command answers a next state, and it is one of those cases. -/
theorem exec_cases (i : Instr) (s : State) : ∃ t, exec i s = .next t ∧ ExecCase i s t := by
  cases i
  case rNew =>
    refine ⟨_, rfl, ?_⟩
    split
    · next h => exact .readerLimit rfl h
    · next h => exact .newReader rfl (Nat.le_of_not_lt h)
  case wNew =>
    refine ⟨_, rfl, ?_⟩
    split
    · next h => exact .writerLimit rfl h
    · next h => exact .newWriter rfl (Nat.le_of_not_lt h)
  case rRdbits w | rRdsbits w =>
    refine ⟨_, rfl, ?_⟩
    split
    · next h => exact .toRes w _ rfl (by simp [accessBits, h])
    · next h => exact .readWidth w (unsupportedWidth_bounds h) (by simp)
  case wWrbits w | wWrsbits w =>
    refine ⟨_, rfl, ?_⟩
    split
    · next h => exact .write w _ rfl (by simp [accessBits, h])
    · next h => exact .writeWidth w (unsupportedWidth_bounds h) (by simp)
  case wWrrun =>
    refine ⟨_, rfl, ?_⟩
    split
    · next h => exact .write _ _ rfl (if_pos h)
    · next h => exact .runLength rfl h
  case rRdbytes | rRdrun => exact ⟨_, rfl, .toOut _ _ rfl rfl⟩
  case rRdstr | rRdstrm => exact ⟨_, rfl, .str _ (by simp)⟩
  case rSeek | rReset => exact ⟨_, rfl, .moveReader _ (by simp)⟩
  case wSeek => exact ⟨_, rfl, .moveWriter _ (.inl rfl) (seekClamp_le s)⟩
  case wReset => exact ⟨_, rfl, .moveWriter _ (.inr rfl) (Nat.zero_le _)⟩
  case rBitsread | rData | wBitswritten | wByteswritten | wData =>
    exact ⟨_, rfl, .query _ _ (by simp)⟩
  all_goals first
    | exact ⟨_, rfl, .toRes _ _ rfl rfl⟩
    | exact ⟨_, rfl, .write _ _ rfl rfl⟩

end Sys2Proof.Machine
end

