-- ==== Sys2Proof/Laws/PerInstr.lean ====
section
/-! SUPPORT. Facts said once per command: the family UnitBit of LAWS.json. -/

/-- "OP[5] = 0 selects the reader unit and OP[5] = 1 selects the writer unit, for every assigned opcode"
(spec/30_encoding.md R76). -/
def Sys2Proof.Laws.UnitBit.Statement (i : Sys2Proof.Instr) : Prop :=
  (Sys2Proof.opcode i).getLsbD 5 = decide (Sys2Proof.Machine.unitOf i = .writer)

theorem Sys2Proof.Laws.UnitBit.rNew :
    Sys2Proof.Laws.UnitBit.Statement .rNew := by
  unfold Sys2Proof.Laws.UnitBit.Statement; decide

theorem Sys2Proof.Laws.UnitBit.rRdbits (w : Nat) :
    Sys2Proof.Laws.UnitBit.Statement (.rRdbits w) := by
  simp [Sys2Proof.Laws.UnitBit.Statement, Sys2Proof.opcode, Sys2Proof.Machine.unitOf]

theorem Sys2Proof.Laws.UnitBit.rRdsbits (w : Nat) :
    Sys2Proof.Laws.UnitBit.Statement (.rRdsbits w) := by
  simp [Sys2Proof.Laws.UnitBit.Statement, Sys2Proof.opcode, Sys2Proof.Machine.unitOf]

theorem Sys2Proof.Laws.UnitBit.rRdu8 :
    Sys2Proof.Laws.UnitBit.Statement .rRdu8 := by
  unfold Sys2Proof.Laws.UnitBit.Statement; decide

theorem Sys2Proof.Laws.UnitBit.rRdu16 :
    Sys2Proof.Laws.UnitBit.Statement .rRdu16 := by
  unfold Sys2Proof.Laws.UnitBit.Statement; decide

theorem Sys2Proof.Laws.UnitBit.rRdu32 :
    Sys2Proof.Laws.UnitBit.Statement .rRdu32 := by
  unfold Sys2Proof.Laws.UnitBit.Statement; decide

theorem Sys2Proof.Laws.UnitBit.rRdu64 :
    Sys2Proof.Laws.UnitBit.Statement .rRdu64 := by
  unfold Sys2Proof.Laws.UnitBit.Statement; decide

theorem Sys2Proof.Laws.UnitBit.rRdi8 :
    Sys2Proof.Laws.UnitBit.Statement .rRdi8 := by
  unfold Sys2Proof.Laws.UnitBit.Statement; decide

theorem Sys2Proof.Laws.UnitBit.rRdi16 :
    Sys2Proof.Laws.UnitBit.Statement .rRdi16 := by
  unfold Sys2Proof.Laws.UnitBit.Statement; decide

theorem Sys2Proof.Laws.UnitBit.rRdi32 :
    Sys2Proof.Laws.UnitBit.Statement .rRdi32 := by
  unfold Sys2Proof.Laws.UnitBit.Statement; decide

theorem Sys2Proof.Laws.UnitBit.rRdi64 :
    Sys2Proof.Laws.UnitBit.Statement .rRdi64 := by
  unfold Sys2Proof.Laws.UnitBit.Statement; decide

theorem Sys2Proof.Laws.UnitBit.rRdf32 :
    Sys2Proof.Laws.UnitBit.Statement .rRdf32 := by
  unfold Sys2Proof.Laws.UnitBit.Statement; decide

theorem Sys2Proof.Laws.UnitBit.rRdf64 :
    Sys2Proof.Laws.UnitBit.Statement .rRdf64 := by
  unfold Sys2Proof.Laws.UnitBit.Statement; decide

theorem Sys2Proof.Laws.UnitBit.rRdbytes :
    Sys2Proof.Laws.UnitBit.Statement .rRdbytes := by
  unfold Sys2Proof.Laws.UnitBit.Statement; decide

theorem Sys2Proof.Laws.UnitBit.rRdrun :
    Sys2Proof.Laws.UnitBit.Statement .rRdrun := by
  unfold Sys2Proof.Laws.UnitBit.Statement; decide

theorem Sys2Proof.Laws.UnitBit.rRdstr :
    Sys2Proof.Laws.UnitBit.Statement .rRdstr := by
  unfold Sys2Proof.Laws.UnitBit.Statement; decide

theorem Sys2Proof.Laws.UnitBit.rRdstrm :
    Sys2Proof.Laws.UnitBit.Statement .rRdstrm := by
  unfold Sys2Proof.Laws.UnitBit.Statement; decide

theorem Sys2Proof.Laws.UnitBit.rSeek :
    Sys2Proof.Laws.UnitBit.Statement .rSeek := by
  unfold Sys2Proof.Laws.UnitBit.Statement; decide

theorem Sys2Proof.Laws.UnitBit.rReset :
    Sys2Proof.Laws.UnitBit.Statement .rReset := by
  unfold Sys2Proof.Laws.UnitBit.Statement; decide

theorem Sys2Proof.Laws.UnitBit.rBitsread :
    Sys2Proof.Laws.UnitBit.Statement .rBitsread := by
  unfold Sys2Proof.Laws.UnitBit.Statement; decide

theorem Sys2Proof.Laws.UnitBit.rData :
    Sys2Proof.Laws.UnitBit.Statement .rData := by
  unfold Sys2Proof.Laws.UnitBit.Statement; decide

theorem Sys2Proof.Laws.UnitBit.wNew :
    Sys2Proof.Laws.UnitBit.Statement .wNew := by
  unfold Sys2Proof.Laws.UnitBit.Statement; decide

theorem Sys2Proof.Laws.UnitBit.wWrbits (w : Nat) :
    Sys2Proof.Laws.UnitBit.Statement (.wWrbits w) := by
  simp [Sys2Proof.Laws.UnitBit.Statement, Sys2Proof.opcode, Sys2Proof.Machine.unitOf]

theorem Sys2Proof.Laws.UnitBit.wWrsbits (w : Nat) :
    Sys2Proof.Laws.UnitBit.Statement (.wWrsbits w) := by
  simp [Sys2Proof.Laws.UnitBit.Statement, Sys2Proof.opcode, Sys2Proof.Machine.unitOf]

theorem Sys2Proof.Laws.UnitBit.wWru8 :
    Sys2Proof.Laws.UnitBit.Statement .wWru8 := by
  unfold Sys2Proof.Laws.UnitBit.Statement; decide

theorem Sys2Proof.Laws.UnitBit.wWru16 :
    Sys2Proof.Laws.UnitBit.Statement .wWru16 := by
  unfold Sys2Proof.Laws.UnitBit.Statement; decide

theorem Sys2Proof.Laws.UnitBit.wWru32 :
    Sys2Proof.Laws.UnitBit.Statement .wWru32 := by
  unfold Sys2Proof.Laws.UnitBit.Statement; decide

theorem Sys2Proof.Laws.UnitBit.wWru64 :
    Sys2Proof.Laws.UnitBit.Statement .wWru64 := by
  unfold Sys2Proof.Laws.UnitBit.Statement; decide

theorem Sys2Proof.Laws.UnitBit.wWri8 :
    Sys2Proof.Laws.UnitBit.Statement .wWri8 := by
  unfold Sys2Proof.Laws.UnitBit.Statement; decide

theorem Sys2Proof.Laws.UnitBit.wWri16 :
    Sys2Proof.Laws.UnitBit.Statement .wWri16 := by
  unfold Sys2Proof.Laws.UnitBit.Statement; decide

theorem Sys2Proof.Laws.UnitBit.wWri32 :
    Sys2Proof.Laws.UnitBit.Statement .wWri32 := by
  unfold Sys2Proof.Laws.UnitBit.Statement; decide

theorem Sys2Proof.Laws.UnitBit.wWri64 :
    Sys2Proof.Laws.UnitBit.Statement .wWri64 := by
  unfold Sys2Proof.Laws.UnitBit.Statement; decide

theorem Sys2Proof.Laws.UnitBit.wWrf32 :
    Sys2Proof.Laws.UnitBit.Statement .wWrf32 := by
  unfold Sys2Proof.Laws.UnitBit.Statement; decide

theorem Sys2Proof.Laws.UnitBit.wWrf64 :
    Sys2Proof.Laws.UnitBit.Statement .wWrf64 := by
  unfold Sys2Proof.Laws.UnitBit.Statement; decide

theorem Sys2Proof.Laws.UnitBit.wWrbytes :
    Sys2Proof.Laws.UnitBit.Statement .wWrbytes := by
  unfold Sys2Proof.Laws.UnitBit.Statement; decide

theorem Sys2Proof.Laws.UnitBit.wWrrun :
    Sys2Proof.Laws.UnitBit.Statement .wWrrun := by
  unfold Sys2Proof.Laws.UnitBit.Statement; decide

theorem Sys2Proof.Laws.UnitBit.wWrstr :
    Sys2Proof.Laws.UnitBit.Statement .wWrstr := by
  unfold Sys2Proof.Laws.UnitBit.Statement; decide

theorem Sys2Proof.Laws.UnitBit.wSeek :
    Sys2Proof.Laws.UnitBit.Statement .wSeek := by
  unfold Sys2Proof.Laws.UnitBit.Statement; decide

theorem Sys2Proof.Laws.UnitBit.wReset :
    Sys2Proof.Laws.UnitBit.Statement .wReset := by
  unfold Sys2Proof.Laws.UnitBit.Statement; decide

theorem Sys2Proof.Laws.UnitBit.wBitswritten :
    Sys2Proof.Laws.UnitBit.Statement .wBitswritten := by
  unfold Sys2Proof.Laws.UnitBit.Statement; decide

theorem Sys2Proof.Laws.UnitBit.wByteswritten :
    Sys2Proof.Laws.UnitBit.Statement .wByteswritten := by
  unfold Sys2Proof.Laws.UnitBit.Statement; decide

theorem Sys2Proof.Laws.UnitBit.wData :
    Sys2Proof.Laws.UnitBit.Statement .wData := by
  unfold Sys2Proof.Laws.UnitBit.Statement; decide
end

