-- ==== Sys2Proof/Machine/Assembly.lean ====
section
/-! DEFINITION. The assembler syntax of spec/30_encoding.md R82 with the pseudo-instructions of R83: from
one line of text to the transaction (CMD, A, IN) it stands for (R84). No step of the machine uses it. -/

namespace Sys2Proof.Machine

/-- The operand forms of R82. -/
inductive OperandForm where
  /-- `R.NEW in` -/
  | bytes
  /-- `R.RDBITS w` -/
  | width
  /-- `R.RDU8` -/
  | nothing
  /-- `R.RDBYTES a` -/
  | scalar
  /-- `W.WRBITS w, a` -/
  | widthScalar
  /-- `W.WRRUN a, in` -/
  | scalarBytes
  deriving DecidableEq, Repr

/-- The operand form of each command (R82). -/
def operandForm : Instr → OperandForm
  | .rNew | .wWrbytes | .wWrstr => .bytes
  | .rRdbits _ | .rRdsbits _ => .width
  | .rRdu8 | .rRdu16 | .rRdu32 | .rRdu64 | .rRdi8 | .rRdi16
  | .rRdi32 | .rRdi64 | .rRdf32 | .rRdf64 | .rRdstr | .rReset
  | .rBitsread | .rData | .wReset | .wBitswritten | .wByteswritten | .wData => .nothing
  | .rRdbytes | .rRdrun | .rRdstrm | .rSeek | .wNew | .wWru8
  | .wWru16 | .wWru32 | .wWru64 | .wWri8 | .wWri16 | .wWri32
  | .wWri64 | .wWrf32 | .wWrf64 | .wSeek => .scalar
  | .wWrbits _ | .wWrsbits _ => .widthScalar
  | .wWrrun => .scalarBytes

/-- The reader's commands, with width 0 where they take one. -/
def readerCommands : List Instr :=
  [.rNew, .rRdbits 0, .rRdsbits 0, .rRdu8, .rRdu16, .rRdu32,
   .rRdu64, .rRdi8, .rRdi16, .rRdi32, .rRdi64, .rRdf32,
   .rRdf64, .rRdbytes, .rRdrun, .rRdstr, .rRdstrm, .rSeek,
   .rReset, .rBitsread, .rData]

/-- The writer's commands, with width 0 where they take one. -/
def writerCommands : List Instr :=
  [.wNew, .wWrbits 0, .wWrsbits 0, .wWru8, .wWru16, .wWru32,
   .wWru64, .wWri8, .wWri16, .wWri32, .wWri64, .wWrf32,
   .wWrf64, .wWrbytes, .wWrrun, .wWrstr, .wSeek, .wReset,
   .wBitswritten, .wByteswritten, .wData]

/-- The command with the given width, where it takes one. -/
def withWidth (i : Instr) (w : Nat) : Instr :=
  match i with
  | .rRdbits _ => .rRdbits w
  | .rRdsbits _ => .rRdsbits w
  | .wWrbits _ => .wWrbits w
  | .wWrsbits _ => .wWrsbits w
  | i => i

/-- The command a name stands for, the two pseudo-instructions of R83 included. -/
def commandNamed (name : List Char) : Option Instr :=
  if name = "R.RDBYTE".toList then some pseudoRdbyte
  else if name = "W.WRBYTE".toList then some pseudoWrbyte
  else (readerCommands ++ writerCommands).find? (fun i => (mnemonic i).toList = name)

/-- A decimal or hexadecimal digit's value. -/
def digitValue (base : Nat) (c : Char) : Option Nat :=
  let v :=
    if '0' ≤ c ∧ c ≤ '9' then some (c.toNat - '0'.toNat)
    else if 'a' ≤ c ∧ c ≤ 'f' then some (c.toNat - 'a'.toNat + 10)
    else if 'A' ≤ c ∧ c ≤ 'F' then some (c.toNat - 'A'.toNat + 10)
    else none
  v.filter (fun d => decide (d < base))

/-- The value of a run of digits after the value `acc` of the digits before it. -/
def digitsValue (base : Nat) : Nat → List Char → Option Nat
  | acc, [] => some acc
  | acc, c :: cs =>
    match digitValue base c with
    | some d => digitsValue base (base * acc + d) cs
    | none => none

/-- A decimal or `0x` hexadecimal literal. -/
def naturalLiteral : List Char → Option Nat
  | [] => none
  | ['0', 'x'] => none
  | '0' :: 'x' :: cs => digitsValue 16 0 cs
  | c :: cs => digitsValue 10 0 (c :: cs)

/-- The width operand `w` is decimal (R82) and a value of the 7-bit field WID (R72). -/
def widthLiteral : List Char → Option Nat
  | [] => none
  | cs => (digitsValue 10 0 cs).filter (fun w => decide (w < 128))

/-- The scalar operand `a`: "A negative literal stands for its 64-bit two's complement" (R82). A literal
outside 64 bits is not one (log 13). -/
def scalarLiteral : List Char → Option Word64
  | ['-'] => none
  | '-' :: cs =>
    match digitsValue 10 0 cs with
    | some v => if v ≤ 2 ^ 63 then some (BitVec.ofInt 64 (-(v : Int))) else none
    | none => none
  | cs =>
    match naturalLiteral cs with
    | some v => if v < 2 ^ 64 then some (BitVec.ofNat 64 v) else none
    | none => none

/-- Splits at the first `, ` (R82). -/
def splitFirst : List Char → Option (List Char × List Char)
  | [] => none
  | ',' :: ' ' :: cs => some ([], cs)
  | c :: cs => (splitFirst cs).map (fun p => (c :: p.1, p.2))

/-- Splits at every `, ` (R82). -/
def splitAll : List Char → List (List Char)
  | [] => [[]]
  | ',' :: ' ' :: cs => [] :: splitAll cs
  | c :: cs =>
    match splitAll cs with
    | [] => [[c]]
    | p :: ps => (c :: p) :: ps

/-- A byte literal. -/
def byteLiteral (cs : List Char) : Option Byte :=
  match naturalLiteral cs with
  | some v => if v < 256 then some (BitVec.ofNat 8 v) else none
  | none => none

/-- Every part read by `f`, or nothing. -/
def readEach (f : List Char → Option Byte) : List (List Char) → Option (List Byte)
  | [] => some []
  | p :: ps =>
    match f p, readEach f ps with
    | some b, some bs => some (b :: bs)
    | _, _ => none

/-- A character of a quoted string: ASCII, standing for its byte (R82). -/
def asciiByte (c : Char) : Option Byte :=
  if c.toNat < 128 ∧ c ≠ '"' then some (BitVec.ofNat 8 c.toNat) else none

/-- The byte operand `in`: a bracketed list of byte literals, or a double-quoted ASCII string, which
"stands for its bytes, with no terminator added" (R82). -/
def bytesLiteral (cs : List Char) : Option (List Byte) :=
  match cs with
  | '[' :: rest =>
    if rest = [']'] then some []
    else if rest.getLast? = some ']' then readEach byteLiteral (splitAll rest.dropLast) else none
  | '"' :: rest =>
    if rest.getLast? = some '"' then
      readEach (fun p => p.head?.bind asciiByte) (rest.dropLast.map (fun c => [c]))
    else none
  | _ => none

/-- The transaction of a command with its written operands; an omitted A is 0 and an omitted IN is []
(R84). -/
def assembleOperands (i : Instr) (ops : Option (List Char)) : Option Transaction :=
  match operandForm i, ops with
  | .nothing, none => some ⟨encode i, 0, []⟩
  | .bytes, some cs => (bytesLiteral cs).map (fun b => ⟨encode i, 0, b⟩)
  | .width, some cs => (widthLiteral cs).map (fun w => ⟨encode (withWidth i w), 0, []⟩)
  | .scalar, some cs => (scalarLiteral cs).map (fun a => ⟨encode i, a, []⟩)
  | .widthScalar, some cs =>
    (splitFirst cs).bind (fun p =>
      (widthLiteral p.1).bind (fun w =>
        (scalarLiteral p.2).map (fun a => ⟨encode (withWidth i w), a, []⟩)))
  | .scalarBytes, some cs =>
    (splitFirst cs).bind (fun p =>
      (scalarLiteral p.1).bind (fun a => (bytesLiteral p.2).map (fun b => ⟨encode i, a, b⟩)))
  | _, _ => none

/-- Splits a line at its first space: the name, and the operands where there are any (R82). -/
def splitName : List Char → List Char × Option (List Char)
  | [] => ([], none)
  | ' ' :: cs => ([], some cs)
  | c :: cs => let p := splitName cs; (c :: p.1, p.2)

/-- The transaction a line of assembler text stands for (R82 to R84), if it is one. -/
def assemble (line : String) : Option Transaction :=
  let p := splitName line.toList
  (commandNamed p.1).bind (fun i => assembleOperands i p.2)

end Sys2Proof.Machine
end

