-- ==== Sys2Proof/Tests/Slice0.lean ====
section
/-! SUPPORT. Tests: well-formedness, decoding of words written out from the spec's encoding, one step per
command with the values of spec/95_test_vectors.md, and for every statement with hypotheses a state and
operands that meet them. -/

namespace Sys2Proof.Tests

open Sys2Proof Sys2Proof.Machine

/-! ## Well-formedness: a width that the 7-bit field WID cannot hold is refused (R71, R72) -/

theorem test_wf_rRdbits : (Instr.rRdbits 128).wf = false ∧ (Instr.rRdbits 127).wf = true := by decide

theorem test_wf_rRdsbits : (Instr.rRdsbits 128).wf = false ∧ (Instr.rRdsbits 127).wf = true := by decide

theorem test_wf_wWrbits : (Instr.wWrbits 128).wf = false ∧ (Instr.wWrbits 127).wf = true := by decide

theorem test_wf_wWrsbits : (Instr.wWrsbits 128).wf = false ∧ (Instr.wWrsbits 127).wf = true := by decide

/-! ## Decoding: each word is written out as RSV (17 bits), WID (7 bits), OP (8 bits) from R71 and R76 -/

theorem test_decode_primitive :
    decode 0b00000000000000000000001100000010 = .ok (.rRdbits 3) ∧
    decode 0b00000000000000000100000000000011 = .ok (.rRdsbits 64) ∧
    decode 0b00000000000000000010000100100010 = .ok (.wWrbits 33) ∧
    decode 0b00000000000000000111111100100011 = .ok (.wWrsbits 127) := by decide

theorem test_decode_typed_reads :
    decode 0b00000000000000000000000000000100 = .ok .rRdu8 ∧
    decode 0b00000000000000000000000000000101 = .ok .rRdu16 ∧
    decode 0b00000000000000000000000000000110 = .ok .rRdu32 ∧
    decode 0b00000000000000000000000000000111 = .ok .rRdu64 ∧
    decode 0b00000000000000000000000000001000 = .ok .rRdi8 ∧
    decode 0b00000000000000000000000000001001 = .ok .rRdi16 ∧
    decode 0b00000000000000000000000000001010 = .ok .rRdi32 ∧
    decode 0b00000000000000000000000000001011 = .ok .rRdi64 ∧
    decode 0b00000000000000000000000000001100 = .ok .rRdf32 ∧
    decode 0b00000000000000000000000000001101 = .ok .rRdf64 ∧
    decode 0b00000000000000000000000000010000 = .ok .rRdbytes ∧
    decode 0b00000000000000000000000000010001 = .ok .rRdrun ∧
    decode 0b00000000000000000000000000010010 = .ok .rRdstr ∧
    decode 0b00000000000000000000000000010011 = .ok .rRdstrm := by decide

theorem test_decode_typed_writes :
    decode 0b00000000000000000000000000100100 = .ok .wWru8 ∧
    decode 0b00000000000000000000000000100101 = .ok .wWru16 ∧
    decode 0b00000000000000000000000000100110 = .ok .wWru32 ∧
    decode 0b00000000000000000000000000100111 = .ok .wWru64 ∧
    decode 0b00000000000000000000000000101000 = .ok .wWri8 ∧
    decode 0b00000000000000000000000000101001 = .ok .wWri16 ∧
    decode 0b00000000000000000000000000101010 = .ok .wWri32 ∧
    decode 0b00000000000000000000000000101011 = .ok .wWri64 ∧
    decode 0b00000000000000000000000000101100 = .ok .wWrf32 ∧
    decode 0b00000000000000000000000000101101 = .ok .wWrf64 ∧
    decode 0b00000000000000000000000000110000 = .ok .wWrbytes ∧
    decode 0b00000000000000000000000000110001 = .ok .wWrrun ∧
    decode 0b00000000000000000000000000110010 = .ok .wWrstr := by decide

theorem test_decode_cursor :
    decode 0b00000000000000000000000000000001 = .ok .rNew ∧
    decode 0b00000000000000000000000000011000 = .ok .rSeek ∧
    decode 0b00000000000000000000000000011001 = .ok .rReset ∧
    decode 0b00000000000000000000000000011010 = .ok .rBitsread ∧
    decode 0b00000000000000000000000000011011 = .ok .rData ∧
    decode 0b00000000000000000000000000100001 = .ok .wNew ∧
    decode 0b00000000000000000000000000111000 = .ok .wSeek ∧
    decode 0b00000000000000000000000000111001 = .ok .wReset ∧
    decode 0b00000000000000000000000000111010 = .ok .wBitswritten ∧
    decode 0b00000000000000000000000000111011 = .ok .wByteswritten ∧
    decode 0b00000000000000000000000000111100 = .ok .wData := by decide

/-- Illegal words of R77 to R79 (V-E1 to V-E7). -/
theorem test_decode_illegal :
    decode 0x00000000 = .error .unassignedOp ∧ decode 0x0000000E = .error .unassignedOp ∧
    decode 0x000000FF = .error .unassignedOp ∧ decode 0x00008024 = .error .reservedBits ∧
    decode 0x80000024 = .error .reservedBits ∧ decode 0x00000824 = .error .widthNotUsed ∧
    decode 0x00000104 = .error .widthNotUsed := by decide

/-- R83: R.RDBYTE and W.WRBYTE are spellings of R.RDU8 and W.WRU8. -/
theorem test_decode_pseudo :
    decode 0x00000004 = .ok pseudoRdbyte ∧ decode 0x00000024 = .ok pseudoWrbyte := by decide

/-- A table row's word has 32 bits; bits above `nbits` are 0. -/
theorem test_decode_table_word :
    decodeTableWord 32 0x00000523 = some (.wWrsbits 5) ∧ decodeTableWord 32 0x00008024 = none ∧
    decodeTableWord 8 0xFF24 = some .wWru8 := by decide

/-! ## Assembler lines of 95_test_vectors.md (R82 to R84) -/

theorem test_assemble_width : assemble "W.WRSBITS 5, -3" = some ⟨0x00000523, 0xfffffffffffffffd, []⟩ := by
  decide

theorem test_assemble_bytes : assemble "W.WRRUN 12, [0xCD, 0xAB]" = some ⟨0x00000031, 12, [0xCD, 0xAB]⟩ := by
  decide

theorem test_assemble_string : assemble "W.WRSTR \"abc\"" = some ⟨0x00000032, 0, [0x61, 0x62, 0x63]⟩ := by
  decide

theorem test_assemble_pseudo : assemble "W.WRBYTE 255" = some ⟨0x00000024, 255, []⟩ := by decide

/-! ## One step -/

/-- A block whose reader was made over `bytes` and stands at bit `cur`. -/
def readerAt (bytes : List Byte) (cur : Word64) : State :=
  { State.reset with reader := { Reader.construct bytes with cur := cur } }

/-- A block whose writer has capacity `cap` and holds `bytes`, with the cursor and the mark as given. -/
def writerAt (cap : Nat) (bytes : List Byte) (cur bw : Word64) : State :=
  { State.reset with
    writer := { Writer.construct cap with buf := Memory.ofBytes bytes, cur := cur, bw := bw } }

/-- A poisoned writer of capacity `cap` over `bytes` (R246). -/
def poisonedWriter (cap : Nat) (bytes : List Byte) : State :=
  { writerAt cap bytes 0 0 with writer := (writerAt cap bytes 0 0).writer.pin }

/-- The state in which the host presents one transaction next. -/
def presents (s : State) (cmd : Word) (a : Word64) (inp : List Byte) : State :=
  { s with pending := [.command ⟨cmd, a, inp⟩] }

/-- The state after one step with the given transaction, if there is one. -/
def after (s : State) (cmd : Word) (a : Word64) (inp : List Byte) : Option State :=
  match step (presents s cmd a inp) with
  | .next t => some t
  | .fault _ => none
  | .refused _ => none

/-- What a vector shows of a reader command. -/
structure ReaderView where
  st : Nat
  ovf : Nat
  res : Nat
  out : List Byte
  cur : Nat
  deriving DecidableEq, Repr

/-- What a vector shows of a writer command, with the first bytes of W.BUF. -/
structure WriterView where
  st : Nat
  ovf : Nat
  cur : Nat
  bw : Nat
  poison : Bool
  bytes : List Byte
  deriving DecidableEq, Repr

def readerView (t : State) : ReaderView := ⟨t.st.toNat, t.ovf.toNat, t.res.toNat, t.out, t.reader.cur.toNat⟩

def writerView (k : Nat) (t : State) : WriterView :=
  ⟨t.st.toNat, t.ovf.toNat, t.writer.cur.toNat, t.writer.bw.toNat, t.writer.poison,
    t.writer.buf.bytes 0 k⟩

/-- What a query shows: ST, RES and OUT. -/
def queryView (t : State) : Nat × Nat × List Byte := (t.st.toNat, t.res.toNat, t.out)

/-- V-P10 -/
theorem test_rdbits :
    (after (readerAt [0xB5, 0x6C, 0xF0, 0x0F, 0x81, 0x42, 0x99, 0xE7] 7) 0x00001E02 0 []).map readerView =
      some ⟨0, 0, 0x21fe0d9, [], 37⟩ := by decide +kernel

/-- V-P8 -/
theorem test_rdbits_width :
    (after (readerAt [0xB5, 0x6C, 0xF0, 0x0F, 0x81, 0x42, 0x99, 0xE7] 7) 0x00004102 0 []).map readerView =
      some ⟨2, 0, 0, [], 7⟩ := by decide +kernel

/-- V-P20 -/
theorem test_rdsbits :
    (after (readerAt [0xB5, 0x6C, 0xF0, 0x0F, 0x81, 0x42, 0x99, 0xE7] 1) 0x00003F03 0 []).map readerView =
      some ⟨0, 0, 0xf3cca14087f8365a, [], 64⟩ := by decide +kernel

/-- V-P19 -/
theorem test_rdsbits_overrun :
    (after (readerAt [0xB5, 0x6C, 0xF0, 0x0F, 0x81, 0x42, 0x99, 0xE7] 1) 0x00004003 0 []).map readerView =
      some ⟨1, 1, 0, [], 1⟩ := by decide +kernel

/-- V-T2 -/
theorem test_rdu8 :
    (after (readerAt [0x21, 0x43] 4) 0x00000004 0 []).map readerView =
      some ⟨0, 0, 0x32, [], 12⟩ := by decide +kernel

/-- V-T3 -/
theorem test_rdu8_overrun :
    (after (readerAt [0x21, 0x43] 12) 0x00000004 0 []).map readerView =
      some ⟨1, 4, 0, [], 12⟩ := by decide +kernel

/-- V-T4 -/
theorem test_rdi8 :
    (after (readerAt [0x80, 0x7F] 0) 0x00000008 0 []).map readerView =
      some ⟨0, 0, 0xffffffffffffff80, [], 8⟩ := by decide +kernel

/-- V-T6 -/
theorem test_rdu16 :
    (after (readerAt [0x34, 0x12, 0x00, 0x80, 0xFE, 0xFF] 0) 0x00000005 0 []).map readerView =
      some ⟨0, 0, 0x1234, [], 16⟩ := by decide +kernel

/-- V-T7 -/
theorem test_rdi16 :
    (after (readerAt [0x34, 0x12, 0x00, 0x80, 0xFE, 0xFF] 16) 0x00000009 0 []).map readerView =
      some ⟨0, 0, 0xffffffffffff8000, [], 32⟩ := by decide +kernel

/-- V-T9 -/
theorem test_rdu32 :
    (after (readerAt [0x79, 0x3D, 0x03, 0x00, 0x5C, 0x09, 0xF9, 0xFF] 0) 0x00000006 0 []).map readerView =
      some ⟨0, 0, 0x33d79, [], 32⟩ := by decide +kernel

/-- V-T10 -/
theorem test_rdi32 :
    (after (readerAt [0x79, 0x3D, 0x03, 0x00, 0x5C, 0x09, 0xF9, 0xFF] 32) 0x0000000A 0 []).map readerView =
      some ⟨0, 0, 0xfffffffffff9095c, [], 64⟩ := by decide +kernel

/-- V-T12 -/
theorem test_rdu64 :
    (after (readerAt [0x79, 0x3D, 0x03, 0x00, 0x5C, 0x09, 0xF9, 0xFF] 0) 0x00000007 0 []).map readerView =
      some ⟨0, 0, 0xfff9095c00033d79, [], 64⟩ := by decide +kernel

/-- V-T14 -/
theorem test_rdi64 :
    (after (readerAt [0x79, 0x3D, 0x03, 0x00, 0x5C, 0x09, 0xF9, 0xFF] 0) 0x0000000B 0 []).map readerView =
      some ⟨0, 0, 0xfff9095c00033d79, [], 64⟩ := by decide +kernel

/-- V-T22: a signalling NaN pattern passes unchanged -/
theorem test_rdf32 :
    (after (readerAt [0x01, 0x00, 0x80, 0x7F] 0) 0x0000000C 0 []).map readerView =
      some ⟨0, 0, 0x7f800001, [], 32⟩ := by decide +kernel

/-- V-T20 -/
theorem test_rdf64 :
    (after (readerAt [0x00, 0x00, 0xC0, 0x3F, 0x00, 0x00, 0x00, 0x00, 0x00, 0x00, 0xF8, 0x3F] 32) 0x0000000D 0 []).map readerView =
      some ⟨0, 0, 0x3ff8000000000000, [], 96⟩ := by decide +kernel

/-- V-T34 -/
theorem test_rdbytes :
    (after (readerAt [0x10, 0x32, 0x54, 0x76, 0x98] 4) 0x00000010 4 []).map readerView =
      some ⟨0, 0, 0, [0x21, 0x43, 0x65, 0x87], 36⟩ := by decide +kernel

/-- V-T37: a run of no bytes past the end fails -/
theorem test_rdbytes_past_end :
    (after (readerAt [0x01] 9) 0x00000010 0 []).map readerView =
      some ⟨1, 1, 0, [], 9⟩ := by decide +kernel

/-- V-T30 -/
theorem test_rdrun :
    (after (readerAt [0xCD, 0xAB] 0) 0x00000011 12 []).map readerView =
      some ⟨0, 0, 0, [0xCD, 0x0B], 12⟩ := by decide +kernel

/-- V-T31 -/
theorem test_rdrun_partial :
    (after (readerAt [0xCD, 0xAB] 12) 0x00000011 4 []).map readerView =
      some ⟨0, 0, 0, [0x0A], 16⟩ := by decide +kernel

/-- V-T39 -/
theorem test_rdstr :
    (after (readerAt [0x61, 0x62, 0x63, 0x00, 0x64, 0x65] 0) 0x00000012 0 []).map readerView =
      some ⟨0, 0, 0, [0x61, 0x62, 0x63], 32⟩ := by decide +kernel

/-- V-T49: stops with four bits left -/
theorem test_rdstr_unaligned :
    (after (readerAt [0x16, 0x26, 0x36, 0x00] 4) 0x00000012 0 []).map readerView =
      some ⟨0, 0, 0, [0x61, 0x62, 0x03], 28⟩ := by decide +kernel

/-- V-T42 -/
theorem test_rdstrm :
    (after (readerAt [0x61, 0x62, 0x63, 0x00] 0) 0x00000013 2 []).map readerView =
      some ⟨0, 0, 0, [0x61, 0x62], 16⟩ := by decide +kernel

/-- V-T46: a maximum of 0 consumes nothing -/
theorem test_rdstrm_zero :
    (after (readerAt [0x00, 0x78] 8) 0x00000013 0 []).map readerView =
      some ⟨0, 0, 0, [], 8⟩ := by decide +kernel

/-- R200: R.NEW copies IN and starts at bit 0. -/
theorem test_rnew :
    (after (readerAt [0xFF] 5) 0x00000001 0 [0x01, 0x00, 0x02]).map
        (fun t => (readerView t, t.reader.tot, t.reader.buf)) =
      some (⟨0, 0, 0, [], 0⟩, 24, [(0, 0x01), (2, 0x02)]) := by decide +kernel

/-- R200, R244: an IN above RBUF_MAX_BYTES changes nothing. -/
theorem test_rnew_limit :
    (after { readerAt [0xFF] 5 with limits := ⟨1, 4, 2⟩ } 0x00000001 0 [0x01, 0x02]).map
        (fun t => (t.st, t.reader)) =
      some (4, (readerAt [0xFF] 5).reader) := by decide +kernel

/-- V-C25: no clamp -/
theorem test_rseek :
    (after (readerAt [0x01, 0x02] 8) 0x00000018 0xffffffffffffffff []).map readerView =
      some ⟨0, 0, 0, [], 18446744073709551615⟩ := by decide +kernel

/-- V-C27: the overflow needs 65 bits -/
theorem test_rseek_then_read :
    (after (readerAt [0x01, 0x02] 0xffffffffffffffff) 0x00004002 0 []).map readerView =
      some ⟨1, 18446744073709551663, 0, [], 18446744073709551615⟩ := by decide +kernel

/-- V-P11 -/
theorem test_rreset :
    (after (readerAt [0xB5, 0x6C, 0xF0, 0x0F, 0x81, 0x42, 0x99, 0xE7] 37) 0x00000019 0 []).map readerView =
      some ⟨0, 0, 0, [], 0⟩ := by decide +kernel

/-- V-P23 -/
theorem test_rbitsread :
    (after (readerAt [0xB5, 0x6C, 0xF0, 0x0F, 0x81, 0x42, 0x99, 0xE7] 100) 0x0000001A 0 []).map queryView =
      some (0, 0x64, []) := by decide +kernel

/-- V-C24: the whole buffer, whatever R.CUR is -/
theorem test_rdata :
    (after (readerAt [0x01, 0x02] 8) 0x0000001B 0 []).map queryView =
      some (0, 0, [0x01, 0x02]) := by decide +kernel

/-- V-Q2: bits of A above the width are ignored -/
theorem test_wrbits :
    (after (writerAt 4 [0x05] 3 3) 0x00000322 0xfffffffffffffffb []).map (writerView 8) =
      some ⟨0, 0, 6, 6, false, [0x1D, 0x00, 0x00, 0x00, 0x00, 0x00, 0x00, 0x00]⟩ := by decide +kernel

/-- V-Q14 -/
theorem test_wrbits_width :
    (after (writerAt 4 [] 0 0) 0x00000022 1 []).map (writerView 1) =
      some ⟨2, 0, 64, 64, true, [0x00]⟩ := by decide +kernel

/-- V-Q3 -/
theorem test_wrsbits :
    (after (writerAt 4 [0x1D] 6 6) 0x00000523 0xfffffffffffffffd []).map (writerView 3) =
      some ⟨0, 0, 11, 11, false, [0x5D, 0x07, 0x00]⟩ := by decide +kernel

/-- V-Q16 -/
theorem test_wrsbits_width :
    (after (writerAt 4 [] 0 0) 0x00004123 0xffffffffffffffff []).map (writerView 1) =
      some ⟨2, 0, 64, 64, true, [0x00]⟩ := by decide +kernel

/-- V-W2: the mark stays -/
theorem test_wru8 :
    (after (writerAt 4 [] 3 0) 0x00000024 0xff []).map (writerView 3) =
      some ⟨0, 0, 11, 0, false, [0xF8, 0x07, 0x00]⟩ := by decide +kernel

/-- V-C5 -/
theorem test_wru8_overrun :
    (after (writerAt 0 [0x44, 0x33, 0x22, 0x11] 32 32) 0x00000024 1 []).map (writerView 4) =
      some ⟨1, 8, 32, 32, true, [0x44, 0x33, 0x22, 0x11]⟩ := by decide +kernel

/-- V-W6 -/
theorem test_wru16 :
    (after (writerAt 0 [] 4 4) 0x00000025 0x1234 []).map (writerView 4) =
      some ⟨0, 0, 20, 20, false, [0x40, 0x23, 0x01, 0x00]⟩ := by decide +kernel

/-- V-W11 -/
theorem test_wru32 :
    (after (writerAt 4 [] 0 0) 0x00000026 0x33d79 []).map (writerView 5) =
      some ⟨0, 0, 32, 32, false, [0x79, 0x3D, 0x03, 0x00, 0x00]⟩ := by decide +kernel

/-- V-W13 -/
theorem test_wru64 :
    (after (writerAt 4 [] 0 0) 0x00000027 0xefcdab8967452301 []).map (writerView 8) =
      some ⟨0, 0, 64, 64, false, [0x01, 0x23, 0x45, 0x67, 0x89, 0xAB, 0xCD, 0xEF]⟩ := by decide +kernel

/-- V-W4 -/
theorem test_wri8 :
    (after (writerAt 2 [0xFF] 8 8) 0x00000028 0xffffffffffffffff []).map (writerView 3) =
      some ⟨0, 0, 16, 16, false, [0xFF, 0xFF, 0x00]⟩ := by decide +kernel

/-- V-W7 -/
theorem test_wri16 :
    (after (writerAt 0 [] 0 0) 0x00000029 0xfffffffffffffffe []).map (writerView 4) =
      some ⟨0, 0, 16, 16, false, [0xFE, 0xFF, 0x00, 0x00]⟩ := by decide +kernel

/-- V-W12 -/
theorem test_wri32 :
    (after (writerAt 4 [0x79, 0x3D, 0x03] 32 32) 0x0000002A 0xfffffffffff9095c []).map (writerView 8) =
      some ⟨0, 0, 64, 64, false, [0x79, 0x3D, 0x03, 0x00, 0x5C, 0x09, 0xF9, 0xFF]⟩ := by decide +kernel

/-- V-W14 -/
theorem test_wri64 :
    (after (writerAt 4 [] 0 0) 0x0000002B 0xfffffffffffffffe []).map (writerView 8) =
      some ⟨0, 0, 64, 64, false, [0xFE, 0xFF, 0xFF, 0xFF, 0xFF, 0xFF, 0xFF, 0xFF]⟩ := by decide +kernel

/-- V-W16 -/
theorem test_wrf32 :
    (after (writerAt 4 [0x00, 0x00, 0xC0, 0x3F] 32 32) 0x0000002C 0x7f800001 []).map (writerView 8) =
      some ⟨0, 0, 64, 64, false, [0x00, 0x00, 0xC0, 0x3F, 0x01, 0x00, 0x80, 0x7F]⟩ := by decide +kernel

/-- V-W17 -/
theorem test_wrf64 :
    (after (writerAt 4 [] 0 0) 0x0000002D 0xbfb999999999999a []).map (writerView 8) =
      some ⟨0, 0, 64, 64, false, [0x9A, 0x99, 0x99, 0x99, 0x99, 0x99, 0xB9, 0xBF]⟩ := by decide +kernel

/-- V-W19: nothing is written -/
theorem test_wrf64_overrun :
    (after (writerAt 0 [0x01] 1 1) 0x0000002D 0 []).map (writerView 4) =
      some ⟨1, 33, 32, 32, true, [0x01, 0x00, 0x00, 0x00]⟩ := by decide +kernel

/-- V-W20 -/
theorem test_wrbytes :
    (after (writerAt 1 [] 0 0) 0x00000030 0 [0x01, 0x02, 0x03]).map (writerView 5) =
      some ⟨0, 0, 24, 24, false, [0x01, 0x02, 0x03, 0x00, 0x00]⟩ := by decide +kernel

/-- V-E16: an empty run on a poisoned writer fails with overflow 0 -/
theorem test_wrbytes_poisoned :
    (after (poisonedWriter 1 []) 0x00000030 0 []).map (writerView 1) =
      some ⟨1, 0, 40, 40, true, [0x00]⟩ := by decide +kernel

/-- V-W22 -/
theorem test_wrrun :
    (after (writerAt 1 [] 0 0) 0x00000031 12 [0xCD, 0xAB]).map (writerView 3) =
      some ⟨0, 0, 12, 12, false, [0xCD, 0x0B, 0x00]⟩ := by decide +kernel

/-- V-W23 -/
theorem test_wrrun_length :
    (after (writerAt 1 [0xCD, 0x0B] 12 12) 0x00000031 12 [0xCD]).map (writerView 3) =
      some ⟨3, 0, 12, 12, false, [0xCD, 0x0B, 0x00]⟩ := by decide +kernel

/-- V-W27 -/
theorem test_wrstr :
    (after (writerAt 0 [] 0 0) 0x00000032 0 [0x61, 0x00, 0x62]).map (writerView 4) =
      some ⟨0, 0, 32, 32, false, [0x61, 0x00, 0x62, 0x00]⟩ := by decide +kernel

/-- V-W26 -/
theorem test_wrstr_overrun :
    (after (writerAt 0 [0x61, 0x62, 0x63] 32 32) 0x00000032 0 []).map (writerView 4) =
      some ⟨1, 8, 32, 32, true, [0x61, 0x62, 0x63, 0x00]⟩ := by decide +kernel

/-- V-C6: a new writer is not poisoned -/
theorem test_wnew :
    (after (poisonedWriter 0 [0x44, 0x33, 0x22, 0x11]) 0x00000021 5 []).map (writerView 9) =
      some ⟨0, 0, 0, 0, false, [0x00, 0x00, 0x00, 0x00, 0x00, 0x00, 0x00, 0x00, 0x00]⟩ := by decide +kernel

/-- R201, R244: a capacity whose storage is above WBUF_MAX_BYTES changes nothing. -/
theorem test_wnew_limit :
    (after { writerAt 0 [0x44] 8 8 with limits := ⟨0, 8, 0⟩ } 0x00000021 5 []).map
        (fun t => (t.st, t.writer)) =
      some (4, (writerAt 0 [0x44] 8 8).writer) := by decide +kernel

/-- V-C7: clamped to W.TOT -/
theorem test_wseek :
    (after (writerAt 5 [] 0 0) 0x00000038 0x1f4 []).map (writerView 1) =
      some ⟨0, 0, 72, 0, false, [0x00]⟩ := by decide +kernel

/-- V-E12 -/
theorem test_wseek_poisoned :
    (after (poisonedWriter 1 []) 0x00000038 0 []).map (writerView 1) =
      some ⟨0, 0, 40, 40, true, [0x00]⟩ := by decide +kernel

/-- V-C12: the mark is kept -/
theorem test_wreset :
    (after (writerAt 5 [0x00, 0xAA] 16 8) 0x00000039 0 []).map (writerView 2) =
      some ⟨0, 0, 0, 8, false, [0x00, 0xAA]⟩ := by decide +kernel

/-- V-E13 -/
theorem test_wreset_poisoned :
    (after (poisonedWriter 1 []) 0x00000039 0 []).map (writerView 1) =
      some ⟨0, 0, 40, 40, true, [0x00]⟩ := by decide +kernel

/-- V-C19 -/
theorem test_wbitswritten :
    (after (writerAt 5 [0x55, 0x66, 0x07] 19 19) 0x0000003A 0 []).map queryView =
      some (0, 0x13, []) := by decide +kernel

/-- V-C20 -/
theorem test_wbyteswritten :
    (after (writerAt 5 [0x55, 0x66, 0x07] 19 19) 0x0000003B 0 []).map queryView =
      some (0, 3, []) := by decide +kernel

/-- V-C21 -/
theorem test_wdata :
    (after (writerAt 5 [0x55, 0x66, 0x07] 19 19) 0x0000003C 0 []).map queryView =
      some (0, 0, [0x55, 0x66, 0x07]) := by decide +kernel

/-- V-E20: the pad is included -/
theorem test_wdata_poisoned :
    (after (poisonedWriter 1 []) 0x0000003C 0 []).map queryView =
      some (0, 0, [0x00, 0x00, 0x00, 0x00, 0x00]) := by decide +kernel

/-- V-E18: IllegalCommand before UnsupportedWidth -/
theorem test_illegal_word :
    (after (writerAt 1 [] 0 0) 0x0000C622 0 []).map (writerView 1) =
      some ⟨3, 0, 0, 0, false, [0x00]⟩ := by decide +kernel

/-- R280: block reset between commands keeps the later events and the limits. -/
theorem test_block_reset :
    step { poisonedWriter 1 [0x01] with
        pending := [.blockReset, .command ⟨0x0000003A, 0, []⟩], limits := ⟨9, 9, 9⟩ } =
      .next { State.resetWith ⟨9, 9, 9⟩ with pending := [.command ⟨0x0000003A, 0, []⟩] } := rfl

/-- R4, R259: with no command presented the block's state persists. -/
theorem test_idle : step (writerAt 1 [0x01] 8 8) = .next (writerAt 1 [0x01] 8 8) := rfl

/-- R74, I12: an IN above IN_MAX_BYTES is refused by name, an IN of exactly that length is not. -/
theorem test_in_too_long :
    step (presents { State.reset with limits := ⟨9, 9, 1⟩ } 0x00000030 0 [0x01, 0x02]) =
      .refused .inTooLong := rfl

theorem test_in_just_fits :
    (after { State.reset with limits := ⟨9, 9, 2⟩ } 0x00000030 0 [0x01, 0x02]).map (writerView 2) =
      some ⟨0, 0, 16, 16, false, [0x01, 0x02]⟩ := by decide +kernel

/-- The first command after reset is the word that withFetchWord presents. -/
theorem test_fetch_word :
    step (State.reset.withFetchWord 32 0x00000024) =
      exec .wWru8 { State.reset with cmd := 0x00000024 } := rfl

/-! ## The datapaths (R102, R106): the values of V-X1 to V-X14 -/

/-- A buffer of the byte values 01, 23, 45, 67, 89, AB, CD, EF. -/
def digits : Memory := Memory.ofBytes [0x01, 0x23, 0x45, 0x67, 0x89, 0xAB, 0xCD, 0xEF]

theorem test_extract :
    extract digits 8 28 12 = 0x896 ∧ extract digits 8 0 32 = 0x67452301 ∧
    extract digits 8 7 25 = 0xCE8A46 ∧ extract digits 8 7 26 = 0x2CE8A46 ∧
    extract (Memory.ofBytes [0xB5]) 1 2 3 = 5 ∧ extract digits 8 4 60 = 0xEFCDAB896745230 := by decide

/-- V-X7e: the exact guard reads the whole field where the source's literal one does not. -/
theorem test_extract_guard :
    extract (Memory.ofBytes [0xFF, 0xFF, 0xFF, 0xFF, 0xFF, 0xFF, 0xFF, 0xFF]) 8 1 32 = 0xFFFFFFFF := by decide

theorem test_inject :
    (inject [] 8 28 12 0xABC).bytes 0 8 = [0x00, 0x00, 0x00, 0xC0, 0xAB, 0x00, 0x00, 0x00] ∧
    (inject [] 5 6 5 0x1D).bytes 0 5 = [0x40, 0x07, 0x00, 0x00, 0x00] ∧
    (inject [] 8 60 4 0xF).bytes 0 8 = [0x00, 0x00, 0x00, 0x00, 0x00, 0x00, 0x00, 0xF0] ∧
    (inject [] 8 33 31 0x7FFFFFFF).bytes 0 8 = [0x00, 0x00, 0x00, 0x00, 0xFE, 0xFF, 0xFF, 0xFF] := by decide

theorem test_memRead : memRead digits 28 12 = 0x896 ∧ memRead digits 7 26 = 0x2CE8A46 := by decide

theorem test_memWrite :
    (memWrite [] 28 12 0xABC).bytes 0 8 = [0x00, 0x00, 0x00, 0xC0, 0xAB, 0x00, 0x00, 0x00] := by decide

/-- R109: SignNorm below 32 bits and at 32. -/
theorem test_signNorm :
    signNorm 0x8000000D 5 = 0x000000000000000D ∧ signNorm 0x15 5 = 0xfffffffffffffff5 ∧
    signNorm 0x80000000 32 = 0x80000000 := by decide

/-! ## Witnesses: for each statement with hypotheses, values that meet them all -/
/-- R.RDU8's transaction, the next event of a block just reset. -/
def idleRead : State := presents State.reset 0x00000004 0 []

/-- A state of the invariant with a reader of two bytes and an unpoisoned writer of five bytes. -/
def plain : State :=
  { readerAt [0x34, 0x12] 0 with writer := (writerAt 1 [0x09] 8 8).writer, a := 3, inp := [0x61] }

/-- The same with a poisoned writer. -/
def poisoned : State := { plain with writer := (poisonedWriter 1 [0x09]).writer }

theorem plain_inv : plain.Inv := by
  unfold State.Inv Reader.ok Writer.ok State.responseOk; decide

theorem poisoned_inv : poisoned.Inv := by
  unfold State.Inv Reader.ok Writer.ok State.responseOk; decide

/-- A block reset waits on a poisoned block. -/
def resetting : State := { poisoned with pending := [.blockReset] }

theorem witness_DecodeEncodeRoundTrip :
    Instr.wf .wData = true ∧ Instr.wf (.rRdbits 0) = true ∧ Instr.wf (.wWrsbits 127) = true := by decide

theorem witness_DecodedWordIsItsEncoding :
    decode 0x00000001 = .ok .rNew ∧ decode 0x00007F23 = .ok (.wWrsbits 127) := by decide

theorem witness_OpcodeBitFiveSelectsTheUnit :
    decode 0x0000001B = .ok .rData ∧ decode 0x00000021 = .ok .wNew := by decide

/-- The first clause at every boundary of its ranges. -/
theorem witness_UnassignedOpcodesAreIllegal :
    ∀ op : Nat, op ∈ [0x00, 0x0E, 0x0F, 0x14, 0x17, 0x1C, 0x20, 0x2E, 0x2F, 0x33, 0x37, 0x3D, 0xFF] →
      ∃ (s : State) (x : Transaction), s.pending = .command x :: [] ∧
        x.inp.length ≤ s.limits.inMaxBytes.toNat ∧ (x.cmd.extractLsb' 0 8).toNat = op ∧
        (op = 0x00 ∨ op = 0x0E ∨ op = 0x0F ∨ (0x14 ≤ op ∧ op ≤ 0x17) ∨ (0x1C ≤ op ∧ op ≤ 0x20) ∨
          op = 0x2E ∨ op = 0x2F ∨ (0x33 ≤ op ∧ op ≤ 0x37) ∨ (0x3D ≤ op ∧ op ≤ 0xFF)) := by
  intro op h
  refine ⟨presents State.reset (BitVec.ofNat 32 op) 0 [], ⟨BitVec.ofNat 32 op, 0, []⟩, rfl, Nat.zero_le _, ?_⟩
  revert op
  decide

/-- The second clause at the assigned neighbours of those ranges. -/
theorem witness_UnassignedOpcodesAreIllegal_others :
    ∀ op : Nat, op ∈ [0x01, 0x0D, 0x10, 0x13, 0x18, 0x1B, 0x21, 0x2D, 0x30, 0x32, 0x38, 0x3C] →
      op < 256 ∧
        ¬ (op = 0x00 ∨ op = 0x0E ∨ op = 0x0F ∨ (0x14 ≤ op ∧ op ≤ 0x17) ∨ (0x1C ≤ op ∧ op ≤ 0x20) ∨
          op = 0x2E ∨ op = 0x2F ∨ (0x33 ≤ op ∧ op ≤ 0x37) ∨ (0x3D ≤ op ∧ op ≤ 0xFF)) := by decide

theorem witness_ReservedBitsAreIllegal :
    ∀ cmd : Word, cmd ∈ [(0x00008000 : Word), 0x80000000, 0x00008024, 0xFFFFFFFF] →
      ∃ (s : State) (x : Transaction), s.pending = .command x :: [] ∧
        x.inp.length ≤ s.limits.inMaxBytes.toNat ∧ x.cmd.extractLsb' 15 17 ≠ 0 := by
  intro cmd h
  refine ⟨presents State.reset cmd 0 [], ⟨cmd, 0, []⟩, rfl, Nat.zero_le _, ?_⟩
  simp only [List.mem_cons, List.not_mem_nil, or_false] at h
  rcases h with rfl | rfl | rfl | rfl <;> decide

theorem witness_WidthOnAnotherCommandIsIllegal :
    ∀ cmd : Word, cmd ∈ [(0x00000101 : Word), 0x00007F3C, 0x00000824] →
      ∃ (s : State) (x : Transaction), s.pending = .command x :: [] ∧
        x.inp.length ≤ s.limits.inMaxBytes.toNat ∧
        x.cmd.extractLsb' 0 8 ∉ [opcode (.rRdbits 0), opcode (.rRdsbits 0), opcode (.wWrbits 0),
          opcode (.wWrsbits 0)] ∧ x.cmd.extractLsb' 8 7 ≠ 0 := by
  intro cmd h
  refine ⟨presents State.reset cmd 0 [], ⟨cmd, 0, []⟩, rfl, Nat.zero_le _, ?_⟩
  simp only [List.mem_cons, List.not_mem_nil, or_false] at h
  rcases h with rfl | rfl | rfl <;> decide

/-- An IN of exactly IN_MAX_BYTES. -/
theorem witness_StepRunsTheDecodedCommand :
    ∃ (s : State) (x : Transaction), s.pending = .command x :: [] ∧
      x.inp.length ≤ s.limits.inMaxBytes.toNat ∧ decode x.cmd = .ok .rNew :=
  ⟨presents { State.reset with limits := ⟨9, 9, 1⟩ } 0x00000001 0 [0x07], ⟨0x00000001, 0, [0x07]⟩, rfl,
    by decide, by decide⟩

/-- An IN one byte longer than IN_MAX_BYTES. -/
theorem witness_OverlongInIsRefused :
    ∃ (s : State) (x : Transaction), s.pending = .command x :: [] ∧
      s.limits.inMaxBytes.toNat < x.inp.length :=
  ⟨presents { State.reset with limits := ⟨9, 9, 1⟩ } 0x00000001 0 [0x07, 0x08],
    ⟨0x00000001, 0, [0x07, 0x08]⟩, rfl, by decide⟩

theorem witness_StepsFollowIssueOrder :
    (idleRead.pending ≠ [] ∧ ∃ t, step idleRead = .next t) ∧
      resetting.pending ≠ [] ∧ ∃ t, step resetting = .next t :=
  ⟨⟨by decide, _, rfl⟩, by decide, _, rfl⟩

/-- The first premise, and the inner one at the smallest WBUF_MAX_BYTES. -/
theorem witness_BlockResetSetsTheResetState :
    resetting.pending = .blockReset :: [] ∧ 4 ≤ resetting.limits.wbufMaxBytes.toNat ∧
      4 ≤ (⟨0, 4, 0⟩ : Limits).wbufMaxBytes.toNat := by decide

theorem witness_EveryStepKeepsTheInvariant :
    (∃ s t : State, s.Inv ∧ s.pending ≠ [] ∧ step s = .next t) ∧
      4 ≤ (⟨0, 4, 0⟩ : Limits).wbufMaxBytes.toNat :=
  ⟨⟨presents plain 0x00000122 1 [], _, plain_inv, by decide, rfl⟩, by decide⟩

theorem witness_ResetStateHasTheInvariant : 4 ≤ (⟨0, 4, 0⟩ : Limits).wbufMaxBytes.toNat := by decide

/-- The second clause, with an IN of exactly IN_MAX_BYTES. -/
theorem witness_EveryCommandCompletes :
    ∀ x rest, (presents { State.reset with limits := ⟨9, 9, 1⟩ } 0x00000030 0 [0x07]).pending =
      .command x :: rest → x.inp.length ≤ 1 := by
  intro x rest h
  cases h
  decide

theorem witness_UnitsDoNotInterfere : unitOf .rRdstr = .reader ∧ unitOf .wWrstr = .writer := by decide

theorem witness_UnusedOperandsAreIgnored :
    usesA .rRdu8 = false ∧ usesA .wWrbytes = false ∧ usesIn .rRdu8 = false ∧ usesIn (.wWrbits 3) = false := by
  decide

theorem witness_OnlyNewAndResetReplaceTheReaderBuffer :
    ∃ t, step idleRead = .next t ∧ (∀ rest, idleRead.pending ≠ .blockReset :: rest) ∧
      ∀ x rest, idleRead.pending = .command x :: rest → decode x.cmd ≠ .ok .rNew := by
  refine ⟨_, rfl, ?_, ?_⟩
  · intro rest h
    cases h
  · intro x rest h
    cases h
    decide

theorem witness_ReadsAreRepeatable : ∃ t, unitOf .rRdu8 = .reader ∧ exec .rRdu8 plain = .next t :=
  ⟨_, rfl, rfl⟩

/-- Both forms, R.RDBITS at its narrowest and widest, and an exact fit. -/
theorem witness_UnsignedReadsReturnTheField :
    ((Instr.rRdu16, 16) ∈ [(Instr.rRdu8, 8), (.rRdu16, 16), (.rRdu32, 32), (.rRdu64, 64), (.rRdf32, 32),
        (.rRdf64, 64)] ∧ plain.readFits 16) ∧
      (1 ≤ 1 ∧ 1 ≤ 64 ∧ plain.readFits 1) ∧
      1 ≤ 64 ∧ 64 ≤ 64 ∧ (readerAt [1, 2, 3, 4, 5, 6, 7, 8] 0).readFits 64 := by
  unfold State.readFits; decide

theorem witness_SignedReadsReturnTheExtendedField :
    ((Instr.rRdi16, 16) ∈ [(Instr.rRdi8, 8), (.rRdi16, 16), (.rRdi32, 32), (.rRdi64, 64)] ∧
        plain.readFits 16) ∧
      (1 ≤ 1 ∧ 1 ≤ 64 ∧ plain.readFits 1) ∧
      1 ≤ 64 ∧ 64 ≤ 64 ∧ (readerAt [1, 2, 3, 4, 5, 6, 7, 8] 0).readFits 64 := by
  unfold State.readFits; decide

/-- An overrun by one bit, an overrun at R.CUR = R.TOT, and an exact fit. -/
theorem witness_ReaderBoundsCheck :
    unitOf (.rRdbits 17) = .reader ∧ accessBits (.rRdbits 17) plain = some 17 ∧
      plain.reader.tot.toNat < plain.reader.cur.toNat + 17 ∧
      accessBits .rRdu8 (readerAt [1] 8) = some 8 ∧
      (readerAt [1] 8).reader.cur = (readerAt [1] 8).reader.tot ∧
      accessBits (.rRdbits 16) plain = some 16 ∧
      plain.reader.cur.toNat + 16 ≤ plain.reader.tot.toNat := by decide

/-- No byte, and all the bytes there are. -/
theorem witness_ByteRunReadReturnsItsBytes :
    ({ plain with a := 0 } : State).readFits (8 * 0) ∧ ({ plain with a := 2 } : State).readFits (8 * 2) := by
  unfold State.readFits; decide

theorem witness_BitRunReadReturnsItsBits :
    ({ plain with a := 0 } : State).readFits 0 ∧ ({ plain with a := 16 } : State).readFits 16 ∧
      ({ plain with a := 13 } : State).readFits 13 := by
  unfold State.readFits; decide

theorem witness_StringReadsStopAtZeroLimitOrEnd :
    (Instr.rRdstr = .rRdstr ∧ (none : Option Nat) = none) ∧
      Instr.rRdstrm = .rRdstrm ∧ some 3 = some plain.a.toNat := by decide

/-- The widths 0 and 65, and a command of each unit that answers ST = 2. -/
theorem witness_UnsupportedWidthsFail :
    ((0 = 0 ∨ 64 < 0) ∧ (65 = 0 ∨ 64 < 65)) ∧
      (∃ t, exec (.rRdsbits 0) plain = .next t ∧ t.st = 2) ∧
      ∃ t, exec (.wWrbits 65) plain = .next t ∧ t.st = 2 :=
  ⟨by decide, ⟨_, rfl, by decide⟩, _, rfl, by decide⟩

theorem witness_ReaderErrorsChangeNothing :
    (unitOf .rRdu32 = .reader ∧ ∃ t, exec .rRdu32 plain = .next t ∧ (t.st = 1 ∨ t.st = 2)) ∧
      ∃ t, exec (.rRdbits 0) plain = .next t ∧ (t.st = 1 ∨ t.st = 2) :=
  ⟨⟨rfl, _, rfl, by decide⟩, _, rfl, by decide⟩

/-- Both forms, W.WRBITS and W.WRSBITS at their narrowest and widest, and an exact fit. -/
theorem witness_SizedWritesStoreTheLowBitsOfA :
    (Instr.wWru32, 32) ∈ [(Instr.wWru8, 8), (.wWru16, 16), (.wWru32, 32), (.wWru64, 64), (.wWri8, 8),
        (.wWri16, 16), (.wWri32, 32), (.wWri64, 64), (.wWrf32, 32), (.wWrf64, 64)] ∧
      plain.writer.buf.wf = true ∧ plain.writeFits 32 ∧ plain.writeFits 1 ∧
      (writerAt 4 [] 0 0).writer.buf.wf = true ∧ (writerAt 4 [] 0 0).writeFits 64 := by
  unfold State.writeFits; decide

theorem witness_ByteRunWriteStoresIn :
    plain.writer.buf.wf = true ∧ plain.writeFits (8 * plain.inp.length) := by
  unfold State.writeFits; decide

/-- A length that agrees at both ends of its range, and one byte too few and too many. -/
theorem witness_BitRunWriteStoresInOrRejectsLength :
    (∀ a : Nat, a ∈ [1, 8] → a ≤ 8 * plain.inp.length ∧ 8 * plain.inp.length < a + 8 ∧
        ({ plain with a := BitVec.ofNat 64 a } : State).a.toNat = a ∧ plain.writer.buf.wf = true ∧
        plain.writer.poison = false ∧ plain.writer.cur.toNat + a ≤ plain.writer.tot.toNat) ∧
      ∀ a : Nat, a ∈ [0, 9] → ({ plain with a := BitVec.ofNat 64 a } : State).a.toNat = a ∧
        ¬ (a ≤ 8 * plain.inp.length ∧ 8 * plain.inp.length < a + 8) := by decide

theorem witness_StringWriteAppendsTheZeroByte :
    plain.writer.buf.wf = true ∧ plain.writeFits (8 * (plain.inp.length + 1)) := by
  unfold State.writeFits; decide

/-- A poisoned writer with a run of no bits, an overrun by one bit, and an exact fit. -/
theorem witness_WriterBoundsCheck :
    (({ poisoned with inp := [] } : State).Inv ∧ accessBits .wWrbytes { poisoned with inp := [] } = some 0 ∧
        poisoned.writer.poison = true) ∧
      plain.Inv ∧ plain.inp.length ≤ plain.limits.inMaxBytes.toNat ∧ unitOf (.wWrbits 33) = .writer ∧
      accessBits (.wWrbits 33) plain = some 33 ∧
      plain.writer.tot.toNat < plain.writer.cur.toNat + 33 ∧
      accessBits (.wWrbits 32) plain = some 32 ∧ plain.writer.poison = false ∧
      plain.writer.cur.toNat + 32 ≤ plain.writer.tot.toNat :=
  ⟨⟨poisoned_inv, by decide, by decide⟩, plain_inv, by decide⟩

theorem witness_WriterErrorsPinAndPoison :
    (unitOf .wWru64 = .writer ∧ ∃ t, exec .wWru64 plain = .next t ∧ t.st = 1) ∧
      unitOf (.wWrbits 0) = .writer ∧ ∃ t, exec (.wWrbits 0) plain = .next t ∧ t.st = 2 :=
  ⟨⟨rfl, _, rfl, by decide⟩, rfl, _, rfl, by decide⟩

/-- A write at the mark, one below it and one above it. -/
theorem witness_HighWaterMarkFollowsSequentialWrites :
    unitOf .wWru8 = .writer ∧ accessBits .wWru8 plain = some 8 ∧ plain.writeFits 8 ∧
      plain.writer.cur = plain.writer.bw ∧ (writerAt 1 [] 0 8).writeFits 8 ∧
      (writerAt 1 [] 0 8).writer.cur ≠ (writerAt 1 [] 0 8).writer.bw ∧ (writerAt 1 [] 9 8).writeFits 8 ∧
      (writerAt 1 [] 9 8).writer.cur ≠ (writerAt 1 [] 9 8).writer.bw := by
  unfold State.writeFits; decide

/-- One command for each of the three cases. -/
theorem witness_OnlyThreeThingsMoveTheHighWaterMark :
    (∃ t, exec .wWru8 plain = .next t ∧ t.writer.bw ≠ plain.writer.bw) ∧
      (∃ t, exec .wWru64 plain = .next t ∧ t.writer.bw ≠ plain.writer.bw) ∧
      ∃ t, exec .wNew plain = .next t ∧ t.writer.bw ≠ plain.writer.bw :=
  ⟨⟨_, rfl, by decide +kernel⟩, ⟨_, rfl, by decide⟩, _, rfl, by decide⟩

theorem witness_PayloadBitsAboveTheWidthAreIgnored :
    (∀ k, k < 3 → Nat.testBit 5 k = Nat.testBit 13 k) ∧ 3 ≤ 64 := by decide

/-- The two clauses at 31 and 32, and the ends of the range. -/
theorem witness_SignNormKeepsTheLowBits :
    ∀ n : Nat, n ∈ [1, 31, 32, 64] → 1 ≤ n ∧ n ≤ 64 ∧ (n < 32 ∨ 32 ≤ n) := by decide

theorem witness_WritingTwiceIsWritingOnce : digits.wf = true := by decide

/-- A run of one write on a poisoned writer. -/
theorem witness_PoisonedWriterIsFrozen :
    ∃ t, (presents poisoned 0x00000024 1 []).Inv ∧
      (presents poisoned 0x00000024 1 []).writer.poison = true ∧
      (∀ e, e ∈ (presents poisoned 0x00000024 1 []).pending →
        e ≠ .blockReset ∧ ∀ x, e = .command x → decode x.cmd ≠ .ok .wNew) ∧
      stepsTo 1 (presents poisoned 0x00000024 1 []) t := by
  refine ⟨_, poisoned_inv, rfl, ?_, _, rfl, rfl⟩
  intro e he
  simp [presents] at he
  subst he
  refine ⟨by decide, ?_⟩
  intro x hx
  cases hx
  decide

theorem witness_FailedWriterReportsItsWholeStorage : poisoned.Inv ∧ poisoned.writer.poison = true :=
  ⟨poisoned_inv, rfl⟩

/-- The narrowest and the widest field, each ending at the last bit. -/
theorem witness_ExtractDatapathIsMemRead :
    (1 ≤ 1 ∧ 1 ≤ 64 ∧ 63 + 1 ≤ 8 * 8) ∧ 1 ≤ 64 ∧ 64 ≤ 64 ∧ 0 + 64 ≤ 8 * 8 := by decide

theorem witness_InjectDatapathIsMemWrite :
    digits.wf = true ∧ digits.within 8 = true ∧ (1 ≤ 1 ∧ 1 ≤ 64 ∧ 63 + 1 ≤ 8 * 8) ∧
      1 ≤ 64 ∧ 64 ≤ 64 ∧ 0 + 64 ≤ 8 * 8 := by decide

theorem witness_ByteRunCascadeIsMemRead : 3 + 61 ≤ 8 * 8 := by decide

/-- The narrowest field, and an exact fit of the writer. -/
theorem witness_WrittenFieldReadsBack :
    plain.Inv ∧ (1 ≤ 1 ∧ 1 ≤ 64 ∧ plain.writeFits 1) ∧ (1 ≤ 32 ∧ 32 ≤ 64 ∧ plain.writeFits 32) ∧
      plain.writer.cur = plain.writer.bw ∧
      plain.writer.cur.toNat + 32 ≤ 8 * plain.limits.rbufMaxBytes.toNat :=
  ⟨plain_inv, by unfold State.writeFits; decide⟩

/-- An IN of exactly RBUF_MAX_BYTES. -/
theorem witness_ReaderConstructionCopiesIn :
    ({ plain with limits := ⟨1, 5, 1⟩ } : State).inp.length ≤ (⟨1, 5, 1⟩ : Limits).rbufMaxBytes.toNat := by
  decide

/-- A storage of exactly WBUF_MAX_BYTES, on a poisoned writer. -/
theorem witness_WriterConstructionIsZeroed :
    ({ poisoned with a := 1 } : State).a.toNat + 4 ≤ (⟨1, 5, 1⟩ : Limits).wbufMaxBytes.toNat := by decide

/-- One byte more than each limit, and the answers ST = 4. -/
theorem witness_ResourceLimitOnConstructionOnly :
    (⟨0, 4, 1⟩ : Limits).rbufMaxBytes.toNat < plain.inp.length ∧
      (⟨0, 6, 1⟩ : Limits).wbufMaxBytes.toNat < plain.a.toNat + 4 ∧
      (∃ t, exec .rNew { plain with limits := ⟨0, 4, 1⟩ } = .next t ∧ t.st = 4) ∧
      ∃ t, exec .wNew { plain with limits := ⟨0, 6, 1⟩ } = .next t ∧ t.st = 4 :=
  ⟨by decide, by decide, ⟨_, rfl, by decide⟩, _, rfl, by decide⟩

theorem witness_IllegalAndResourceErrorsChangeNoUnit :
    (∃ t, exec .wWrrun { plain with a := 9 } = .next t ∧ t.st = 3) ∧
      (∃ t, exec .rNew { plain with limits := ⟨0, 4, 1⟩ } = .next t ∧ t.st = 4) ∧
      ∃ (x : Transaction) (t : State), (presents poisoned 0x0000000E 0 []).pending = .command x :: [] ∧
        step (presents poisoned 0x0000000E 0 []) = .next t ∧ decode x.cmd = .error .unassignedOp :=
  ⟨⟨_, rfl, by decide⟩, ⟨_, rfl, by decide⟩, ⟨0x0000000E, 0, []⟩, _, rfl, rfl, by decide⟩

theorem witness_NoStepChangesTheLimits :
    (∃ t, step idleRead = .next t) ∧ ∃ t, step resetting = .next t := ⟨⟨_, rfl⟩, _, rfl⟩

end Sys2Proof.Tests
end

/-! Proofs about the state of spec/10_state.md: what block reset makes of it (R35), and what may replace
the reader's buffer (R21). -/

namespace Sys2Proof.Machine

/-! ## Block reset and the two constructions -/

theorem step_blockReset {s : State} {rest : List HostEvent} (h : s.pending = .blockReset :: rest) :
    step s = .next (blockReset rest s) := by
  simp [step, h]

/-- R.NEW within RBUF_MAX_BYTES constructs the reader over IN (R200). -/
theorem exec_rNew_fits (s : State) (h : s.inp.length ≤ s.limits.rbufMaxBytes.toNat) :
    exec .rNew s = .next (respond 0 [] { s with reader := Reader.construct s.inp }) :=
  congrArg Host.Outcome.next (if_neg (Nat.not_lt.mpr h))

/-- W.NEW within WBUF_MAX_BYTES constructs the writer with a capacity of A bytes (R201). -/
theorem exec_wNew_fits (s : State) (h : s.a.toNat + 4 ≤ s.limits.wbufMaxBytes.toNat) :
    exec .wNew s = .next (respond 0 [] { s with writer := Writer.construct s.a.toNat }) :=
  congrArg Host.Outcome.next (if_neg (Nat.not_lt.mpr h))

theorem Reader.construct_nil : Reader.construct [] = Reader.empty := rfl

theorem Writer.construct_zero : Writer.construct 0 = Writer.empty := rfl

/-- Settles O11: the step is `blockReset`, whose units are the empty ones, and these are what the two
constructions give for an empty IN and for A = 0. -/
theorem blockResetSetsTheResetState : Obligations.BlockResetSetsTheResetState := by
  intro s rest hreset
  have hread : ∃ u, exec .rNew { s with inp := [] } = .next u ∧ u.reader = (blockReset rest s).reader :=
    ⟨_, exec_rNew_fits _ (Nat.zero_le _), Reader.construct_nil⟩
  have hwrite : 4 ≤ s.limits.wbufMaxBytes.toNat →
      ∃ u, exec .wNew { s with a := 0 } = .next u ∧ u.writer = (blockReset rest s).writer :=
    fun hlimit => ⟨_, exec_wNew_fits _ hlimit, Writer.construct_zero⟩
  exact ⟨blockReset rest s, step_blockReset hreset, fun _ => rfl, rfl, rfl, rfl, rfl, rfl, rfl, rfl, rfl,
    rfl, rfl, hread, hwrite⟩

/-! ## Which operations keep the reader's buffer -/

@[simp] theorem Reader.keepsBuffer_refl (r : Reader) : r.keepsBuffer r := ⟨fun _ => rfl, rfl, rfl, rfl⟩

/-- R.CUR is no part of the buffer. -/
@[simp] theorem Reader.keepsBuffer_setCur (r : Reader) (p : Word64) : r.keepsBuffer { r with cur := p } :=
  ⟨fun _ => rfl, rfl, rfl, rfl⟩

theorem readRes_keepsBuffer (n : Nat) (ext : Nat → Word64) (s : State) :
    s.reader.keepsBuffer (readRes n ext s).reader := by
  by_cases hfit : s.readFits n
  · simp [readRes_fits n ext s hfit]
  · simp [readRes_overrun n ext s hfit]

theorem readOut_keepsBuffer (n k : Nat) (s : State) : s.reader.keepsBuffer (readOut n k s).reader := by
  by_cases hfit : s.readFits n
  · simp [readOut_fits n k s hfit]
  · simp [readOut_overrun n k s hfit]

theorem readStr_keepsBuffer (limit : Option Nat) (s : State) :
    s.reader.keepsBuffer (readStr limit s).reader :=
  Reader.keepsBuffer_setCur _ _

@[simp] theorem writeData_reader (n v : Nat) (s : State) : (writeData n v s).reader = s.reader := by
  by_cases hfit : s.writeFits n
  · simp [writeData_fits n v s hfit]
  · simp [writeData_overrun n v s hfit]

/-! ## Commands and steps -/

theorem execCase_of_exec {i : Instr} {s t : State} (h : exec i s = .next t) : ExecCase i s t := by
  obtain ⟨u, hu, hcase⟩ := exec_cases i s
  cases hu.symm.trans h
  exact hcase

/-- Every command but R.NEW keeps the reader's buffer: a reader command moves R.CUR at most, and a writer
command has no access to the reader (R21, R65). -/
theorem exec_keepsBuffer {i : Instr} {s t : State} (h : exec i s = .next t) (hi : i ≠ .rNew) :
    s.reader.keepsBuffer t.reader := by
  cases execCase_of_exec h with
  | toRes n ext => exact readRes_keepsBuffer n ext s
  | toOut n k => exact readOut_keepsBuffer n k s
  | str limit => exact readStr_keepsBuffer limit s
  | moveReader p => exact Reader.keepsBuffer_setCur s.reader p
  | newReader hnew => exact absurd hnew hi
  | write | readWidth | writeWidth | runLength | readerLimit | writerLimit | newWriter | moveWriter
  | query => simp

/-- Settles O17, by what one step can do: only a decoded command can change the reader, and it is not
R.NEW. -/
theorem onlyNewAndResetReplaceTheReaderBuffer : Obligations.OnlyNewAndResetReplaceTheReaderBuffer := by
  intro s t hstep hnoReset hnotNew
  rcases step_cases s t hstep with ⟨-, rfl⟩ | ⟨rest, hp, -⟩ | ⟨x, rest, i, hp, -, hdec, hexec⟩ |
    ⟨x, rest, e, -, -, -, rfl⟩
  · exact Reader.keepsBuffer_refl _
  · exact absurd hp (hnoReset rest)
  · have hi : i ≠ .rNew := fun hi => hnotNew x rest hp (hi ▸ hdec)
    have hkeeps : (accept x rest s).reader.keepsBuffer t.reader := exec_keepsBuffer hexec hi
    exact hkeeps
  · exact Reader.keepsBuffer_refl _

end Sys2Proof.Machine

/-! Proofs about the command word of spec/30_encoding.md: what its three fields are when it decodes (R71,
R76), and how a step ends when it does not (R77 to R79). -/

namespace Sys2Proof.Machine

/-! ## The fields of a word that decodes -/

theorem withoutWidth_eq_ok_iff {i j : Instr} {wid : Nat} :
    withoutWidth i wid = .ok j ↔ wid = 0 ∧ i = j := by
  by_cases hwid : wid = 0 <;> simp [withoutWidth, hwid]

/-- The table of R76 read backwards: an entry's OP and WID are those of the command it names. Rows 2, 3, 23
and 24 take a width, and row 43 is the OP without an entry. -/
theorem fields_of_decodeOp_eq_ok {op wid : Nat} {i : Instr} (h : decodeOp op wid = .ok i) :
    op = (opcode i).toNat ∧ wid = widthField i := by
  unfold decodeOp at h
  split at h
  case h_43 => cases h
  case h_2 | h_3 | h_23 | h_24 => cases h; exact ⟨rfl, rfl⟩
  all_goals
    obtain ⟨rfl, rfl⟩ := withoutWidth_eq_ok_iff.mp h
    exact ⟨rfl, rfl⟩

/-- A word that decodes has RSV = 0, and its OP and WID are those of its command. -/
theorem fields_of_decode_eq_ok {cmd : Word} {i : Instr} (h : decode cmd = .ok i) :
    cmdRsv cmd = 0 ∧ cmdOp cmd = opcode i ∧ (cmdWid cmd).toNat = widthField i := by
  obtain ⟨hrsv, hdec⟩ := (decode_eq_ok_iff cmd i).mp h
  obtain ⟨hop, hwid⟩ := fields_of_decodeOp_eq_ok hdec
  exact ⟨hrsv, BitVec.eq_of_toNat_eq hop, hwid⟩

/-- Only the four commands with a width have WID ≠ 0 (R79). -/
theorem opcode_mem_of_widthField_ne_zero {i : Instr} (h : widthField i ≠ 0) :
    opcode i ∈ [opcode (.rRdbits 0), opcode (.rRdsbits 0), opcode (.wWrbits 0),
      opcode (.wWrsbits 0)] := by
  cases i with
  | rRdbits w | rRdsbits w | wWrbits w | wWrsbits w => simp [opcode]
  | _ => exact absurd rfl h

/-! ## The unassigned OP values -/

/-- The OP values that the table of R76 leaves out (R77). -/
def UnassignedOp (op : Nat) : Prop :=
  op = 0x00 ∨ op = 0x0E ∨ op = 0x0F ∨ (0x14 ≤ op ∧ op ≤ 0x17) ∨ (0x1C ≤ op ∧ op ≤ 0x20) ∨
    op = 0x2E ∨ op = 0x2F ∨ (0x33 ≤ op ∧ op ≤ 0x37) ∨ (0x3D ≤ op ∧ op ≤ 0xFF)

theorem opcode_not_unassignedOp (i : Instr) : ¬ UnassignedOp (opcode i).toNat := by
  cases i <;> simp [UnassignedOp, opcode]

/-- With WID = 0 the table rejects an 8-bit OP only if it is unassigned: every entry accepts that WID. -/
theorem unassignedOp_of_decodeOp_eq_error {op : Nat} {e : DecodeError} (hop : op < 256)
    (h : decodeOp op 0 = .error e) : UnassignedOp op := by
  unfold decodeOp at h
  split at h
  case h_43 =>
    simp only [imp_false] at *
    unfold UnassignedOp
    omega
  all_goals cases h

/-- An OP alone in a word: RSV and WID are 0 (R71). -/
theorem decode_ofNat_op {op : Nat} (hop : op < 256) : decode (BitVec.ofNat 32 op) = decodeOp op 0 := by
  have hrsv : (cmdRsv (BitVec.ofNat 32 op)).toNat = 0 := by
    simp only [cmdRsv, BitVec.extractLsb'_toNat, BitVec.toNat_ofNat, Nat.shiftRight_eq_div_pow]
    omega
  have hopField : (cmdOp (BitVec.ofNat 32 op)).toNat = op := by
    simp only [cmdOp, BitVec.extractLsb'_toNat, BitVec.toNat_ofNat, Nat.shiftRight_zero]
    omega
  have hwid : (cmdWid (BitVec.ofNat 32 op)).toNat = 0 := by
    simp only [cmdWid, BitVec.extractLsb'_toNat, BitVec.toNat_ofNat, Nat.shiftRight_eq_div_pow]
    omega
  rw [decode, if_pos (BitVec.eq_of_toNat_eq hrsv), hopField, hwid]

/-! ## The step over an illegal word -/

/-- A transaction that the port carries is taken and run. -/
theorem step_command {s : State} {x : Transaction} {rest : List HostEvent}
    (hp : s.pending = .command x :: rest) (hin : x.inp.length ≤ s.limits.inMaxBytes.toNat) :
    step s = runCommand (accept x rest s) := by
  simp [step, hp, portAccepts, hin]

theorem runCommand_of_decode_eq_error {s : State} {e : DecodeError} (h : decode s.cmd = .error e) :
    runCommand s = .next (respondError .illegalCommand s) := by
  simp [runCommand, h]

/-- A step over a word that is no command answers IllegalCommand and changes no unit (R243, R247). -/
theorem endsIllegal_of_decode_ne_ok {s : State} {x : Transaction} {rest : List HostEvent}
    (hp : s.pending = .command x :: rest) (hin : x.inp.length ≤ s.limits.inMaxBytes.toNat)
    (hbad : ∀ i, decode x.cmd ≠ .ok i) : s.endsIllegal rest := by
  cases hdec : decode x.cmd with
  | ok i => exact absurd hdec (hbad i)
  | error e =>
    have hstep : step s = .next (respondError .illegalCommand (accept x rest s)) :=
      (step_command hp hin).trans (runCommand_of_decode_eq_error hdec)
    exact ⟨_, hstep, ⟨rfl, rfl, rfl, rfl, rfl⟩, rfl, rfl, rfl, rfl⟩

/-! ## The three reasons -/

/-- Settles O4: the OP of a word that decodes is its command's opcode, and no opcode is unassigned; with
WID = 0 the table rejects nothing else. -/
theorem unassignedOpcodesAreIllegal : Obligations.UnassignedOpcodesAreIllegal := by
  refine ⟨fun s x rest op hp hin hop hun => ?_, fun op hlt hassigned => ?_⟩
  · refine endsIllegal_of_decode_ne_ok hp hin fun i hdec => opcode_not_unassignedOp i ?_
    obtain ⟨-, hopcode, -⟩ := fields_of_decode_eq_ok hdec
    rwa [← hopcode, show (cmdOp x.cmd).toNat = op from hop]
  · rw [decode_ofNat_op hlt]
    cases hdec : decodeOp op 0 with
    | ok i => exact ⟨i, rfl⟩
    | error e => exact absurd (unassignedOp_of_decodeOp_eq_error hlt hdec) hassigned

/-- Settles O5: a word that decodes has RSV = 0. -/
theorem reservedBitsAreIllegal : Obligations.ReservedBitsAreIllegal := by
  intro s x rest hp hin hrsv
  refine endsIllegal_of_decode_ne_ok hp hin fun i hdec => ?_
  obtain ⟨hzero, -, -⟩ := fields_of_decode_eq_ok hdec
  exact hrsv hzero

/-- Settles O6: a word that decodes with WID ≠ 0 has the OP of one of the four commands with a width. -/
theorem widthOnAnotherCommandIsIllegal : Obligations.WidthOnAnotherCommandIsIllegal := by
  intro s x rest hp hin hother hwid
  refine endsIllegal_of_decode_ne_ok hp hin fun i hdec => hother ?_
  obtain ⟨-, hopcode, hwidth⟩ := fields_of_decode_eq_ok hdec
  have hne : widthField i ≠ 0 := fun hzero => hwid (BitVec.eq_of_toNat_eq (hwidth.trans hzero))
  have hmem := opcode_mem_of_widthField_ne_zero hne
  rwa [← hopcode] at hmem

end Sys2Proof.Machine

/-! Proofs about the field commands of spec/40_codec.md: the bounds checks of the two units (R101, R105),
the high-water mark (R107) and the writer's sign re-normalisation (R109). -/

namespace Sys2Proof.Machine

/-! ## A data command is one field operation -/

/-- The commands that move a field of n bits: a reader command by one read of n bits, a writer command by
one write of n bits. All others have no access width. -/
theorem ExecCase.field_of_accessBits {i : Instr} {s t : State} {n : Nat} (hcase : ExecCase i s t)
    (hn : accessBits i s = some n) :
    (unitOf i = .reader ∧ ((∃ ext, t = readRes n ext s) ∨ ∃ k, t = readOut n k s)) ∨
      (unitOf i = .writer ∧ ∃ v, t = writeData n v s) := by
  cases hcase with
  | toRes m ext hu hm =>
    cases hm.symm.trans hn
    exact .inl ⟨hu, .inl ⟨ext, rfl⟩⟩
  | toOut m k hu hm =>
    cases hm.symm.trans hn
    exact .inl ⟨hu, .inr ⟨k, rfl⟩⟩
  | write m v hu hm =>
    cases hm.symm.trans hn
    exact .inr ⟨hu, v, rfl⟩
  | readWidth w hw hi | writeWidth w hw hi =>
    have hunsupported : ¬ (1 ≤ w ∧ w ≤ 64) := by omega
    rcases hi with rfl | rfl <;>
      simp [accessBits, supportedWidth, Config.maxPrimWidth, hunsupported] at hn
  | runLength hi hl => cases hi; exact absurd hn (by simp [accessBits, hl])
  | str _ hi | moveReader _ hi | moveWriter _ hi =>
    rcases hi with rfl | rfl <;> cases hn
  | readerLimit hi | newReader hi | writerLimit hi | newWriter hi => cases hi; cases hn
  | query _ _ hi => rcases hi with rfl | rfl | rfl | rfl | rfl <;> cases hn

theorem exec_readerData {i : Instr} {s : State} {n : Nat} (hu : unitOf i = .reader)
    (hn : accessBits i s = some n) :
    ∃ t, exec i s = .next t ∧ ((∃ ext, t = readRes n ext s) ∨ ∃ k, t = readOut n k s) := by
  obtain ⟨t, hexec, hcase⟩ := exec_cases i s
  rcases hcase.field_of_accessBits hn with ⟨-, hread⟩ | ⟨hw, -⟩
  · exact ⟨t, hexec, hread⟩
  · cases hw.symm.trans hu

theorem exec_writerData {i : Instr} {s : State} {n : Nat} (hu : unitOf i = .writer)
    (hn : accessBits i s = some n) : ∃ v, exec i s = .next (writeData n v s) := by
  obtain ⟨t, hexec, hcase⟩ := exec_cases i s
  rcases hcase.field_of_accessBits hn with ⟨hr, -⟩ | ⟨-, v, rfl⟩
  · cases hr.symm.trans hu
  · exact ⟨v, hexec⟩

/-! ## Every overflow fits OVF -/

/-- A is below 2^64, and so is the length of an IN that the port carries: no access is wider than 2^67
bits. -/
theorem accessBits_le {i : Instr} {s : State} {n : Nat} (hn : accessBits i s = some n)
    (hin : unitOf i = .writer → s.inp.length < 2 ^ 64) : n ≤ 2 ^ 67 := by
  have hA : countA s < 2 ^ 64 := s.a.isLt
  cases i with
  | rRdbits w | rRdsbits w | wWrbits w | wWrsbits w =>
    obtain ⟨hw, hwn⟩ : supportedWidth w = true ∧ w = n := by simpa [accessBits] using hn
    obtain ⟨-, hle⟩ : 1 ≤ w ∧ w ≤ 64 := of_decide_eq_true hw
    omega
  | rRdbytes | rRdrun =>
    cases hn
    omega
  | wWrrun =>
    obtain ⟨-, hcount⟩ : lengthIn s = ceil8 (countA s) ∧ countA s = n := by simpa [accessBits] using hn
    omega
  | wWrbytes | wWrstr =>
    have hlen : lengthIn s < 2 ^ 64 := hin rfl
    cases hn
    omega
  | _ => cases hn <;> norm_num

/-- A 68-bit OVF holds the overflow of every access (D26). -/
theorem overflowCode_toNat (cur : Word64) {n : Nat} (tot : Nat) (hn : n ≤ 2 ^ 67) :
    (overflowCode (.outOfBounds (cur.toNat + n - tot))).toNat = cur.toNat + n - tot := by
  have hcur := cur.isLt
  exact Nat.mod_eq_of_lt (by omega)

/-! ## The reader's bounds check -/

/-- What a data command of n bits that passes its check does to the reader's unit. -/
def State.readAdvances (s t : State) (n : Nat) : Prop :=
  t.st = 0 ∧ t.reader.cur.toNat = s.reader.cur.toNat + n ∧ s.readerFrame t

theorem respond_readAdvances {n : Nat} {s : State} (res : Word64) (out : List Byte) (h : s.readFits n) :
    s.readAdvances (respond res out
      { s with reader := { s.reader with cur := BitVec.ofNat 64 (s.reader.cur.toNat + n) } }) n :=
  ⟨rfl, readFits_cur_toNat n s h, Reader.keepsBuffer_setCur _ _, rfl, rfl, rfl, rfl, rfl, rfl⟩

/-- Settles O21: a reader data command is one `readRes` or `readOut`, and both branch on the check alone. -/
theorem readerBoundsCheck : Obligations.ReaderBoundsCheck := by
  intro s i n hu hn
  obtain ⟨t, hexec, hread⟩ := exec_readerData hu hn
  refine ⟨fun hover => ?_, fun hfits => ⟨t, hexec, ?_⟩⟩
  · have hnot : ¬ s.readFits n := Nat.not_le.mpr hover
    have ht : t = respondError (.outOfBounds (s.reader.cur.toNat + n - s.reader.tot.toNat)) s := by
      rcases hread with ⟨ext, rfl⟩ | ⟨k, rfl⟩
      · exact readRes_overrun n ext s hnot
      · exact readOut_overrun n k s hnot
    subst ht
    have hovf := overflowCode_toNat s.reader.cur s.reader.tot.toNat (accessBits_le hn (by simp [hu]))
    refine ⟨_, hexec, ⟨rfl, hovf, rfl, rfl, rfl⟩, fun hend => ?_, rfl, rfl, rfl, rfl, rfl, rfl, rfl⟩
    exact hovf.trans (by rw [hend, Nat.add_sub_cancel_left])
  · have hadv : s.readAdvances t n := by
      rcases hread with ⟨ext, rfl⟩ | ⟨k, rfl⟩
      · rw [readRes_fits n ext s hfits]
        exact respond_readAdvances _ _ hfits
      · rw [readOut_fits n k s hfits]
        exact respond_readAdvances _ _ hfits
    exact hadv

/-! ## The writer's bounds check and the high-water mark -/

/-- Settles O31: a writer data command is one `writeData`. Under the invariant a poisoned writer has
W.CUR = W.TOT, so that its overflow is the whole width. -/
theorem writerBoundsCheck : Obligations.WriterBoundsCheck := by
  intro s i n hinv hin hu hn
  obtain ⟨v, hexec⟩ := exec_writerData hu hn
  refine ⟨fun hfail => ?_, fun hfits => ?_⟩
  · have hnot : ¬ s.writeFits n := by
      rintro ⟨hpoison, hle⟩
      rcases hfail with hpoisoned | hover
      · simp [hpoison] at hpoisoned
      · omega
    have hwidth : n ≤ 2 ^ 67 :=
      accessBits_le hn fun _ => Nat.lt_of_le_of_lt hin s.limits.inMaxBytes.isLt
    rw [writeData_overrun n v s hnot] at hexec
    have hovf := overflowCode_toNat s.writer.cur s.writer.tot.toNat hwidth
    refine ⟨_, hexec, ⟨rfl, hovf, rfl, rfl, rfl⟩, fun hpoisoned => ?_, rfl,
      ⟨rfl, rfl⟩, rfl, rfl, rfl, rfl, rfl, rfl⟩
    obtain ⟨-, ⟨-, -, -, -, -, -, hpin⟩, -⟩ := hinv
    obtain ⟨hcur, -⟩ := hpin hpoisoned
    exact hovf.trans (by rw [hcur, Nat.add_sub_cancel_left])
  · rw [writeData_fits n v s hfits] at hexec
    exact ⟨_, hexec, rfl, writeFits_cur_toNat n s hfits, hfits.1,
      ⟨rfl, rfl⟩, rfl, rfl, rfl, rfl, rfl, rfl⟩

/-- Settles O33: the mark of a write that fits is `highWater`, which tests W.CUR = W.BW at entry. -/
theorem highWaterMarkFollowsSequentialWrites : Obligations.HighWaterMarkFollowsSequentialWrites := by
  intro s i n hu hn hfits
  obtain ⟨v, hexec⟩ := exec_writerData hu hn
  rw [writeData_fits n v s hfits] at hexec
  refine ⟨_, hexec, rfl, fun hat => ?_, fun hoff => if_neg hoff⟩
  calc (highWater s.writer.cur s.writer.bw n).toNat
      = (BitVec.ofNat 64 (s.writer.cur.toNat + n)).toNat := by rw [highWater, if_pos hat]
    _ = s.writer.cur.toNat + n := writeFits_cur_toNat n s hfits

/-! ## Sign re-normalisation -/

theorem mask_testBit (n j : Nat) : (mask n).testBit j = decide (j < n) := Nat.testBit_two_pow_sub_one n j

theorem ofNat_mask_getLsbD {j : Nat} (n : Nat) (hj : j < 64) :
    (BitVec.ofNat 64 (mask n)).getLsbD j = decide (j < n) := by
  rw [BitVec.getLsbD_ofNat, mask_testBit, decide_eq_true hj, Bool.true_and]

/-- Below 32 bits the field is cut to n bits, and a set sign bit fills the rest (R109). -/
theorem signNorm_of_lt {v : Word64} {n : Nat} (hn : 1 ≤ n) (hlt : n < 32) :
    signNorm v n = if v.getLsbD (n - 1) then
      (v &&& BitVec.ofNat 64 (mask n)) ||| (BitVec.ofNat 64 (mask 64) ^^^ BitVec.ofNat 64 (mask n))
    else v &&& BitVec.ofNat 64 (mask n) := by
  have hsign : (v &&& BitVec.ofNat 64 (mask n)).getLsbD (n - 1) = v.getLsbD (n - 1) := by
    rw [BitVec.getLsbD_and, ofNat_mask_getLsbD n (by omega), decide_eq_true (by omega), Bool.and_true]
  simp only [signNorm, if_neg (Nat.not_le.mpr hlt), hsign]

/-- Below 32 bits the low n bits stay and every bit above them is the sign bit. -/
theorem signNorm_getLsbD {v : Word64} {n j : Nat} (hn : 1 ≤ n) (hlt : n < 32) (hj : j < 64) :
    (signNorm v n).getLsbD j = if j < n then v.getLsbD j else v.getLsbD (n - 1) := by
  rw [signNorm_of_lt hn hlt]
  split
  · next hset =>
    rw [BitVec.getLsbD_or, BitVec.getLsbD_and, BitVec.getLsbD_xor, ofNat_mask_getLsbD n hj,
      ofNat_mask_getLsbD 64 hj, hset]
    by_cases hlow : j < n <;> simp only [hlow, hj] <;> simp
  · next hclear =>
    rw [BitVec.getLsbD_and, ofNat_mask_getLsbD n hj, Bool.eq_false_of_not_eq_true hclear]
    by_cases hlow : j < n <;> simp only [hlow] <;> simp

/-- Settles O36, by the two branches of `signNorm`. -/
theorem signNormKeepsTheLowBits : Obligations.SignNormKeepsTheLowBits := by
  intro v n hn hmax
  have hwide : 32 ≤ n → signNorm v n = v := fun h => if_pos h
  refine ⟨fun j hj => ?_, fun hlt j hj hj64 => ?_, hwide⟩
  · by_cases h : 32 ≤ n
    · rw [hwide h]
    · rw [signNorm_getLsbD hn (by omega) (by omega), if_pos hj]
  · rw [signNorm_getLsbD hn hlt hj64, if_neg (by omega)]

end Sys2Proof.Machine

/-! Proofs about the word-level datapaths of spec/40_codec.md: what they extract (R102) and store (R106) bit
by bit, and that they agree with MemRead and MemWrite. -/

namespace Sys2Proof.Machine

/-! ## Bytes and words of a buffer -/

theorem Memory.bit_of_byte (m : Memory) (k : Nat) {i : Nat} (hi : i < 8) :
    m.bit (8 * k + i) = (m.read k).getLsbD i := by
  rw [Memory.bit, show (8 * k + i) / 8 = k by omega, show (8 * k + i) % 8 = i by omega]

theorem Memory.bit_write (m : Memory) (k j : Nat) (b : Byte) (h : m.wf = true) :
    (m.write k b).bit j = if j / 8 = k then b.getLsbD (j % 8) else m.bit j := by
  unfold Memory.bit
  split
  · next hk => rw [hk, Memory.read_write_same m k b h]
  · next hk => rw [Memory.read_write_other m k _ b (Ne.symm hk)]

theorem byteAt_getLsbD (m : Memory) (len k : Nat) {i : Nat} (hi : i < 8) :
    (byteAt m len k).getLsbD i = (decide (8 * k + i < 8 * len) && m.bit (8 * k + i)) := by
  rw [byteAt, Memory.bit_of_byte m k hi]
  split
  · next hk => rw [decide_eq_true (by omega), Bool.true_and]
  · next hk => simp [show ¬ 8 * k + i < 8 * len by omega]

/-- A word is 32 bits of the buffer, with 0 for those at or past its end (R102, R106). -/
theorem wordAt_testBit (m : Memory) (len k : Nat) {i : Nat} (hi : i < 32) :
    (wordAt m len k).testBit i = (decide (8 * k + i < 8 * len) && m.bit (8 * k + i)) := by
  obtain ⟨q, r, hr, rfl⟩ : ∃ q r, r < 8 ∧ i = 8 * q + r := ⟨i / 8, i % 8, by omega, by omega⟩
  have hbyte : [byteAt m len k, byteAt m len (k + 1), byteAt m len (k + 2),
      byteAt m len (k + 3)].getD q 0 = byteAt m len (k + q) := by
    have hq : q < 4 := by omega
    interval_cases q <;> rfl
  rw [wordAt, leNat_testBit _ _ _ hr, hbyte, byteAt_getLsbD m len _ hr,
    show 8 * (k + q) + r = 8 * k + (8 * q + r) by omega]

/-! ## The extract datapath -/

/-- What the second word adds to a field that starts at bit `offset` of the first (R102). -/
def extractHigh (offset word1 : Nat) : Nat :=
  if offset = 0 then 0 else (word1 <<< (32 - offset)) % 2 ^ 32

theorem extract32_eq (m : Memory) (len pos n : Nat) :
    extract32 m len pos n =
      (((wordAt m len (pos / 8) >>> (pos % 8)) |||
        extractHigh (pos % 8) (if 32 < pos % 8 + n then wordAt m len (pos / 8 + 4) else 0)) % 2 ^ 32) &&&
        mask n := rfl

/-- The second word's bits follow on from the first word's 32. -/
theorem extractHigh_testBit {offset i : Nat} (word1 : Nat) (ho : offset < 32) (hi : i < 32) :
    (extractHigh offset word1).testBit i =
      (decide (32 ≤ offset + i) && word1.testBit (offset + i - 32)) := by
  unfold extractHigh
  split
  · next hzero => rw [Nat.zero_testBit, decide_eq_false (by omega), Bool.false_and]
  · rw [Nat.testBit_mod_two_pow, decide_eq_true hi, Bool.true_and, Nat.testBit_shiftLeft,
      show i - (32 - offset) = offset + i - 32 by omega,
      decide_eq_decide.mpr (show i ≥ 32 - offset ↔ 32 ≤ offset + i by omega)]

theorem extract32_testBit (m : Memory) {len pos n : Nat} (i : Nat) (hn : n ≤ 32)
    (hend : pos + n ≤ 8 * len) :
    (extract32 m len pos n).testBit i = (decide (i < n) && m.bit (pos + i)) := by
  rw [extract32_eq, Nat.testBit_and, mask_testBit, Bool.and_comm]
  by_cases hi : i < n
  swap
  · rw [decide_eq_false hi, Bool.false_and, Bool.false_and]
  rw [Nat.testBit_mod_two_pow, decide_eq_true (show i < 32 by omega), Bool.true_and, Nat.testBit_or,
    Nat.testBit_shiftRight, extractHigh_testBit _ (by omega) (by omega)]
  by_cases hfirst : pos % 8 + i < 32
  · rw [wordAt_testBit m len _ hfirst, decide_eq_false (show ¬ 32 ≤ pos % 8 + i by omega), Bool.false_and,
      Bool.or_false, show 8 * (pos / 8) + (pos % 8 + i) = pos + i by omega,
      decide_eq_true (show pos + i < 8 * len by omega), Bool.true_and]
  · have hword0 : (wordAt m len (pos / 8)).testBit (pos % 8 + i) = false :=
      Nat.testBit_lt_two_pow (Nat.lt_of_lt_of_le (leNat_lt _)
        (Nat.pow_le_pow_right (by omega) (Nat.le_of_not_lt hfirst)))
    rw [hword0, Bool.false_or, if_pos (by omega), wordAt_testBit m len _ (by omega),
      decide_eq_true (show 32 ≤ pos % 8 + i by omega), Bool.true_and,
      show 8 * (pos / 8 + 4) + (pos % 8 + i - 32) = pos + i by omega,
      decide_eq_true (show pos + i < 8 * len by omega), Bool.true_and]

theorem extract_testBit (m : Memory) {len pos n : Nat} (i : Nat) (hn : n ≤ 64)
    (hend : pos + n ≤ 8 * len) :
    (extract m len pos n).testBit i = (decide (i < n) && m.bit (pos + i)) := by
  unfold extract
  split
  · next h => exact extract32_testBit m i h hend
  · next h =>
    rw [Nat.testBit_or, Nat.testBit_shiftLeft, extract32_testBit m i le_rfl (by omega),
      extract32_testBit m (i - 32) (by omega) (by omega)]
    by_cases hi : i < 32
    · simp [hi, show i < n by omega, show ¬ 32 ≤ i by omega]
    · rw [show pos + 32 + (i - 32) = pos + i by omega]
      simp [hi, Nat.le_of_not_lt hi, show i - 32 < n - 32 ↔ i < n by omega]

/-- Settles O40: both sides have the bits of the field. -/
theorem extractDatapathIsMemRead : Obligations.ExtractDatapathIsMemRead := by
  intro m len pos n _ hn hend
  refine Nat.eq_of_testBit_eq fun i => ?_
  rw [extract_testBit m i hn hend, memRead_testBit]

/-! ## The inject merge -/

/-- The positions of an n-bit field at bit `offset` that lie in the first word (R106). -/
def lowMask (n offset : Nat) : Nat := (mask n <<< offset) % 2 ^ 32

/-- The positions of that field that lie in the second word (R106). -/
def highMask (n offset : Nat) : Nat := if 0 < offset then mask n >>> (32 - offset) else 0

/-- The low 32 bits of the payload, rotated left by `offset` (R106). -/
def rotatedPayload (offset v : Nat) : Nat :=
  (((v % 2 ^ 32) <<< offset) ||| (if offset = 0 then 0 else (v % 2 ^ 32) >>> (32 - offset))) % 2 ^ 32

/-- The first of the two words that the inject datapath stores. -/
def lowMerge (word0 n offset v : Nat) : Nat :=
  mergeWord word0 (lowMask n offset) (rotatedPayload offset v)

/-- The second word, stored only if the field reaches it. -/
def highMerge (word1 n offset v : Nat) : Nat :=
  mergeWord word1 (highMask n offset) (rotatedPayload offset v)

theorem inject32_eq (m : Memory) (len pos n v : Nat) :
    inject32 m len pos n v =
      if highMask n (pos % 32) = 0 then
        storeBytes m len (4 * (pos / 32)) 4 (lowMerge (wordAt m len (4 * (pos / 32))) n (pos % 32) v)
      else
        storeBytes
          (storeBytes m len (4 * (pos / 32)) 4 (lowMerge (wordAt m len (4 * (pos / 32))) n (pos % 32) v))
          len (4 * (pos / 32) + 4) 4
          (highMerge (wordAt m len (4 * (pos / 32) + 4)) n (pos % 32) v) := rfl

theorem mergeWord_testBit (word mask rot i : Nat) :
    (mergeWord word mask rot).testBit i = if mask.testBit i then rot.testBit i else word.testBit i := by
  unfold mergeWord
  rw [Nat.testBit_xor, Nat.testBit_and, Nat.testBit_xor]
  cases mask.testBit i <;> cases rot.testBit i <;> cases word.testBit i <;> rfl

theorem lowMask_testBit (n offset i : Nat) :
    (lowMask n offset).testBit i = decide (offset ≤ i ∧ i < offset + n ∧ i < 32) := by
  rw [lowMask, Nat.testBit_mod_two_pow, Nat.testBit_shiftLeft, mask_testBit, ← Bool.decide_and,
    ← Bool.decide_and]
  exact decide_eq_decide.mpr (by omega)

theorem highMask_testBit {n offset : Nat} (i : Nat) (ho : offset < 32) (hn : n ≤ 32) :
    (highMask n offset).testBit i = decide (32 + i < offset + n) := by
  unfold highMask
  split
  · rw [Nat.testBit_shiftRight, mask_testBit]
    exact decide_eq_decide.mpr (by omega)
  · rw [Nat.zero_testBit, decide_eq_false (by omega)]

/-- The second store is left out only for a field that ends in the first word. -/
theorem le_of_highMask_eq_zero {n offset : Nat} (ho : offset < 32) (hn : n ≤ 32)
    (h : highMask n offset = 0) : offset + n ≤ 32 := by
  have hbit := highMask_testBit 0 ho hn
  rw [h, Nat.zero_testBit] at hbit
  have := of_decide_eq_false hbit.symm
  omega

/-- From bit `offset` on, the rotated payload is the payload's start. -/
theorem rotatedPayload_testBit_of_ge {offset i : Nat} (v : Nat) (ho : offset ≤ i) (hi : i < 32) :
    (rotatedPayload offset v).testBit i = v.testBit (i - offset) := by
  have hright : (if offset = 0 then 0 else (v % 2 ^ 32) >>> (32 - offset)).testBit i = false := by
    split
    · exact Nat.zero_testBit i
    · rw [Nat.testBit_shiftRight, Nat.testBit_mod_two_pow, decide_eq_false (by omega), Bool.false_and]
  rw [rotatedPayload, Nat.testBit_mod_two_pow, Nat.testBit_or, hright, Nat.testBit_shiftLeft,
    Nat.testBit_mod_two_pow, decide_eq_true hi, decide_eq_true ho,
    decide_eq_true (show i - offset < 32 by omega)]
  simp

/-- Below bit `offset`, the rotated payload is what the first word could not take. -/
theorem rotatedPayload_testBit_of_lt {offset i : Nat} (v : Nat) (ho : offset < 32) (hi : i < offset) :
    (rotatedPayload offset v).testBit i = v.testBit (32 + i - offset) := by
  have hleft : ((v % 2 ^ 32) <<< offset).testBit i = false := by
    rw [Nat.testBit_shiftLeft, decide_eq_false (Nat.not_le.mpr hi), Bool.false_and]
  rw [rotatedPayload, Nat.testBit_mod_two_pow, Nat.testBit_or, hleft, if_neg (by omega),
    Nat.testBit_shiftRight, Nat.testBit_mod_two_pow, show 32 - offset + i = 32 + i - offset by omega,
    decide_eq_true (show i < 32 by omega), decide_eq_true (show 32 + i - offset < 32 by omega)]
  simp

theorem lowMerge_testBit (word0 n offset v i : Nat) :
    (lowMerge word0 n offset v).testBit i =
      if offset ≤ i ∧ i < offset + n ∧ i < 32 then v.testBit (i - offset) else word0.testBit i := by
  rw [lowMerge, mergeWord_testBit, lowMask_testBit]
  by_cases h : offset ≤ i ∧ i < offset + n ∧ i < 32
  · rw [if_pos (decide_eq_true h), if_pos h, rotatedPayload_testBit_of_ge v h.1 h.2.2]
  · simp only [h, decide_false, if_false, Bool.false_eq_true]

theorem highMerge_testBit {n offset : Nat} (word1 v i : Nat) (ho : offset < 32) (hn : n ≤ 32) :
    (highMerge word1 n offset v).testBit i =
      if 32 + i < offset + n then v.testBit (32 + i - offset) else word1.testBit i := by
  rw [highMerge, mergeWord_testBit, highMask_testBit i ho hn]
  by_cases h : 32 + i < offset + n
  · simp only [h, decide_true, if_true, rotatedPayload_testBit_of_lt v ho (show i < offset by omega)]
  · simp only [h, decide_false, if_false, Bool.false_eq_true]

/-! ## Payload bits above the width -/

theorem memWrite_congr (m : Memory) (pos n : Nat) {v v' : Nat}
    (h : ∀ k, k < n → v.testBit k = v'.testBit k) : memWrite m pos n v = memWrite m pos n v' := by
  induction n generalizing m pos v v' with
  | zero => rfl
  | succ n ih =>
    have hhalf : ∀ k, k < n → (v / 2).testBit k = (v' / 2).testBit k := fun k hk => by
      simpa only [Nat.testBit_succ] using h (k + 1) (by omega)
    rw [memWrite, memWrite, h 0 (by omega), ih _ _ hhalf]

theorem inject32_congr (m : Memory) (len pos : Nat) {n v v' : Nat} (hn : n ≤ 32)
    (h : ∀ k, k < n → v.testBit k = v'.testBit k) :
    inject32 m len pos n v = inject32 m len pos n v' := by
  have ho : pos % 32 < 32 := Nat.mod_lt _ (by omega)
  have hlow (word0 : Nat) : lowMerge word0 n (pos % 32) v = lowMerge word0 n (pos % 32) v' := by
    refine Nat.eq_of_testBit_eq fun i => ?_
    rw [lowMerge_testBit, lowMerge_testBit]
    split
    · exact h _ (by omega)
    · rfl
  have hhigh (word1 : Nat) : highMerge word1 n (pos % 32) v = highMerge word1 n (pos % 32) v' := by
    refine Nat.eq_of_testBit_eq fun i => ?_
    rw [highMerge_testBit _ _ _ ho hn, highMerge_testBit _ _ _ ho hn]
    split
    · exact h _ (by omega)
    · rfl
  rw [inject32_eq, inject32_eq, hlow, hhigh]

theorem inject_congr (m : Memory) (len pos : Nat) {n v v' : Nat} (hn : n ≤ 64)
    (h : ∀ k, k < n → v.testBit k = v'.testBit k) : inject m len pos n v = inject m len pos n v' := by
  unfold inject
  split
  · next hle => exact inject32_congr m len pos hle h
  · have hupper : ∀ k, k < n - 32 → (v / 2 ^ 32).testBit k = (v' / 2 ^ 32).testBit k := fun k hk => by
      simpa only [Nat.testBit_div_two_pow] using h (k + 32) (by omega)
    rw [inject32_congr m len pos le_rfl fun k hk => h k (by omega),
      inject32_congr _ len (pos + 32) (by omega) hupper]

/-- Settles O35: each store of a payload bit, bit by bit or under a mask, is of a bit below n. -/
theorem payloadBitsAboveTheWidthAreIgnored : Obligations.PayloadBitsAboveTheWidthAreIgnored := by
  intro n v v' h
  refine ⟨fun s => ?_, fun m len pos hn => inject_congr m len pos hn h⟩
  simp only [writeField, memWrite_congr s.writer.buf s.writer.cur.toNat n h]

/-! ## The inject stores -/

/-- One turn of `storeBytes`: a byte at or past the end is not stored (R106). -/
theorem Memory.bit_writeBelow (m : Memory) (len i v j : Nat) (h : m.wf = true) :
    (if i < len then m.write i (BitVec.ofNat 8 v) else m).bit j =
      if j / 8 = i ∧ i < len then v.testBit (j % 8) else m.bit j := by
  split
  · next hi =>
    rw [Memory.bit_write m i j _ h, BitVec.getLsbD_ofNat, decide_eq_true (Nat.mod_lt j (by omega))]
    simp [hi]
  · next hi => simp [hi]

theorem storeBytes_wf (m : Memory) (len i k v : Nat) (h : m.wf = true) :
    (storeBytes m len i k v).wf = true := by
  induction k generalizing m i v with
  | zero => exact h
  | succ k ih =>
    refine ih _ _ _ ?_
    split
    · exact Memory.write_wf m _ _ h
    · exact h

theorem storeBytes_bit (m : Memory) (len i k v j : Nat) (h : m.wf = true) :
    (storeBytes m len i k v).bit j =
      if 8 * i ≤ j ∧ j < 8 * (i + k) ∧ j < 8 * len then v.testBit (j - 8 * i) else m.bit j := by
  induction k generalizing m i v with
  | zero => rw [storeBytes, if_neg (by omega)]
  | succ k ih =>
    have hwf : (if i < len then m.write i (BitVec.ofNat 8 v) else m).wf = true :=
      storeBytes_wf m len i 1 v h
    rw [storeBytes, ih _ _ _ hwf, Memory.bit_writeBelow m len i v j h]
    by_cases hfirst : j / 8 = i
    · rw [if_neg (by omega), show j - 8 * i = j % 8 by omega]
      exact if_congr (by omega) rfl rfl
    · rw [if_neg (show ¬ (j / 8 = i ∧ i < len) from fun hc => hfirst hc.1), show 256 = 2 ^ 8 from rfl,
        Nat.testBit_div_two_pow]
      by_cases hin : 8 * (i + 1) ≤ j ∧ j < 8 * (i + 1 + k) ∧ j < 8 * len
      · rw [if_pos hin, if_pos (by omega), show j - 8 * (i + 1) + 8 = j - 8 * i by omega]
      · rw [if_neg hin, if_neg (by omega)]

/-- Storing a word whose bits are the buffer's own, but for those of the field from bit a up to bit b, stores
the field's part in that word. -/
theorem storeBytes_field_bit {m : Memory} {len k a b v w : Nat} (j : Nat) (h : m.wf = true)
    (hw : ∀ i, i < 32 → 8 * k + i < 8 * len → w.testBit i =
      if a ≤ 8 * k + i ∧ 8 * k + i < b then v.testBit (8 * k + i - a) else m.bit (8 * k + i)) :
    (storeBytes m len k 4 w).bit j =
      if (8 * k ≤ j ∧ j < 8 * k + 32 ∧ j < 8 * len) ∧ a ≤ j ∧ j < b then v.testBit (j - a)
      else m.bit j := by
  rw [storeBytes_bit m len k 4 w j h]
  by_cases hin : 8 * k ≤ j ∧ j < 8 * k + 32 ∧ j < 8 * len
  · obtain ⟨i, rfl⟩ := Nat.exists_eq_add_of_le hin.1
    rw [if_pos (by omega), Nat.add_sub_cancel_left, hw i (by omega) hin.2.2]
    simp only [hin, true_and]
  · rw [if_neg (by omega), if_neg fun hc => hin hc.1]

/-- The first store of the inject datapath writes the part of the field below the word boundary. -/
theorem lowStore_bit (m : Memory) (len pos n v j : Nat) (h : m.wf = true) :
    (storeBytes m len (4 * (pos / 32)) 4
        (lowMerge (wordAt m len (4 * (pos / 32))) n (pos % 32) v)).bit j =
      if (32 * (pos / 32) ≤ j ∧ j < 32 * (pos / 32) + 32 ∧ j < 8 * len) ∧ pos ≤ j ∧ j < pos + n then
        v.testBit (j - pos)
      else m.bit j := by
  rw [storeBytes_field_bit (a := pos) (b := pos + n) (v := v) j h]
  · exact if_congr (by omega) rfl rfl
  · intro i hi hlen
    rw [lowMerge_testBit, wordAt_testBit m len _ hi, decide_eq_true hlen, Bool.true_and,
      show 8 * (4 * (pos / 32)) + i - pos = i - pos % 32 by omega]
    exact if_congr (by omega) rfl rfl

/-- The inject datapath changes exactly the bits of the field (R106). -/
theorem inject32_bit {m : Memory} {len pos n : Nat} (v j : Nat) (h : m.wf = true) (hn : n ≤ 32)
    (hend : pos + n ≤ 8 * len) :
    (inject32 m len pos n v).bit j =
      if pos ≤ j ∧ j < pos + n then v.testBit (j - pos) else m.bit j := by
  have ho : pos % 32 < 32 := Nat.mod_lt _ (by omega)
  rw [inject32_eq]
  split
  · next hzero =>
    have hinside := le_of_highMask_eq_zero ho hn hzero
    rw [lowStore_bit m len pos n v j h]
    exact if_congr (by omega) rfl rfl
  · rw [storeBytes_field_bit (a := pos) (b := pos + n) (v := v) j (storeBytes_wf m _ _ _ _ h),
      lowStore_bit m len pos n v j h]
    · by_cases hfield : pos ≤ j ∧ j < pos + n
      · rw [if_pos hfield]
        split
        · rfl
        · exact if_pos (by omega)
      · rw [if_neg hfield, if_neg fun hc => hfield hc.2, if_neg fun hc => hfield hc.2]
    · intro i hi hlen
      rw [highMerge_testBit _ v i ho hn, wordAt_testBit m len _ hi, decide_eq_true hlen, Bool.true_and,
        lowStore_bit m len pos n v _ h, if_neg (c := (_ ∧ _ ∧ _) ∧ _) (by omega),
        show 8 * (4 * (pos / 32) + 4) + i - pos = 32 + i - pos % 32 by omega]
      exact if_congr (by omega) rfl rfl

theorem inject32_wf (m : Memory) (len pos n v : Nat) (h : m.wf = true) :
    (inject32 m len pos n v).wf = true := by
  rw [inject32_eq]
  split
  · exact storeBytes_wf m _ _ _ _ h
  · exact storeBytes_wf _ _ _ _ _ (storeBytes_wf m _ _ _ _ h)

theorem inject_wf (m : Memory) (len pos n v : Nat) (h : m.wf = true) :
    (inject m len pos n v).wf = true := by
  unfold inject
  split
  · exact inject32_wf m _ _ _ _ h
  · exact inject32_wf _ _ _ _ _ (inject32_wf m _ _ _ _ h)

/-- The two passes above 32 bits store the two parts of one field. -/
theorem inject_bit {m : Memory} {len pos n : Nat} (v j : Nat) (h : m.wf = true) (hn : n ≤ 64)
    (hend : pos + n ≤ 8 * len) :
    (inject m len pos n v).bit j =
      if pos ≤ j ∧ j < pos + n then v.testBit (j - pos) else m.bit j := by
  unfold inject
  split
  · next hle => exact inject32_bit v j h hle hend
  · next hgt =>
    rw [inject32_bit _ j (inject32_wf m _ _ _ _ h) (by omega) (by omega),
      inject32_bit v j h le_rfl (by omega), Nat.testBit_div_two_pow]
    by_cases hupper : pos + 32 ≤ j ∧ j < pos + 32 + (n - 32)
    · rw [if_pos hupper, if_pos (by omega), show j - (pos + 32) + 32 = j - pos by omega]
    · rw [if_neg hupper]
      exact if_congr (by omega) rfl rfl

/-- Settles O41: both buffers are in canonical form and have the same bits. -/
theorem injectDatapathIsMemWrite : Obligations.InjectDatapathIsMemWrite := by
  intro m len pos n v hwf _ _ hn hend
  refine Memory.ext_of_bit _ _ (inject_wf m len pos n v hwf) (memWrite_wf m pos n v hwf) fun j => ?_
  rw [inject_bit v j hwf hn hend, memWrite_bit m pos n v j hwf]

end Sys2Proof.Machine

/-! Proofs about the typed accesses of spec/41_typed_access.md: how far a string read goes and what it
returns (R134). -/

namespace Sys2Proof.Machine

/-! ## The bytes a string read looks at -/

/-- The byte that turn k of `ReadString` reads: the k-th 8-bit field from R.CUR on (R134). -/
def Reader.byteAhead (r : Reader) (k : Nat) : Byte :=
  BitVec.ofNat 8 (memRead r.buf (r.cur.toNat + 8 * k) 8)

theorem Reader.byteAhead_getLsbD (r : Reader) (k : Nat) {j : Nat} (hj : j < 8) :
    (r.byteAhead k).getLsbD j = r.buf.bit (r.cur.toNat + 8 * k + j) := by
  rw [Reader.byteAhead, BitVec.getLsbD_ofNat, memRead_testBit, decide_eq_true hj, Bool.true_and,
    Bool.true_and]

/-- The loop test of `ReadString` at turn k: below the limit, and 8 bits left below R.TOT (R134). -/
def Reader.turnAllowed (r : Reader) (limit : Option Nat) (k : Nat) : Prop :=
  belowLimit limit k = true ∧ r.cur.toNat + 8 * k + 8 ≤ r.tot.toNat

theorem belowLimit_some (m k : Nat) : belowLimit (some m) k = true ↔ k < m := decide_eq_true_iff

/-- The loop test fails at the limit or where fewer than 8 bits remain. -/
theorem Reader.not_turnAllowed {r : Reader} {limit : Option Nat} {k : Nat}
    (h : ¬ r.turnAllowed limit k) :
    (∃ m, limit = some m ∧ m ≤ k) ∨ r.tot.toNat < r.cur.toNat + 8 * k + 8 := by
  by_cases hend : r.cur.toNat + 8 * k + 8 ≤ r.tot.toNat
  · have hlimit : ¬ belowLimit limit k = true := fun hbelow => h ⟨hbelow, hend⟩
    cases limit with
    | none => exact absurd rfl hlimit
    | some m => exact .inl ⟨m, rfl, Nat.not_lt.mp (mt (belowLimit_some m k).mpr hlimit)⟩
  · exact .inr (Nat.not_le.mp hend)

/-! ## What a string read consumes and returns -/

/-- A string read by reader r that returns `out` and consumes c bytes (R134): every turn passed the loop
test, every byte returned is the nonzero one of its turn, and the read stopped at a zero byte, consumed but
not returned, or where the test fails. -/
structure Reader.ReadsString (r : Reader) (limit : Option Nat) (out : List Byte) (c : Nat) : Prop where
  allowed : ∀ k, k < c → r.turnAllowed limit k
  returned : ∀ k, k < out.length → out.getD k 0 = r.byteAhead k ∧ out.getD k 0 ≠ 0
  stopped : (c = out.length + 1 ∧ r.byteAhead out.length = 0) ∨
    (c = out.length ∧ ¬ r.turnAllowed limit c)

/-- Every string read answers ST = 0 and moves R.CUR by the bytes it consumes. -/
theorem readStr_readsString (limit : Option Nat) (s : State) :
    ∃ out c, s.reader.ReadsString limit out c ∧
      readStr limit s = respond 0 out
        { s with reader := { s.reader with cur := BitVec.ofNat 64 (s.reader.cur.toNat + 8 * c) } } := by
  obtain ⟨out, hout, hturns, hstop⟩ := readStringLoop_spec s.reader.buf s.reader.tot.toNat limit
    (s.reader.tot.toNat / 8) 0 s.reader.cur.toNat [] (by omega)
  simp only [Nat.zero_add, List.nil_append] at hout hturns hstop
  have hallowed : ∀ k, k < out.length → s.reader.turnAllowed limit k := by
    intro k hk
    obtain ⟨-, -, hturn⟩ := hturns k hk
    exact hturn
  have hreturned : ∀ k, k < out.length → out.getD k 0 = s.reader.byteAhead k ∧ out.getD k 0 ≠ 0 := by
    intro k hk
    obtain ⟨hbyte, hne, -⟩ := hturns k hk
    exact ⟨hbyte, hne⟩
  rcases hstop with ⟨hcur, hzero, hlast⟩ | ⟨hcur, hfails⟩
  · refine ⟨out, out.length + 1, ⟨fun k hk => ?_, hreturned, .inl ⟨rfl, hzero⟩⟩, ?_⟩
    · rcases Nat.lt_succ_iff_lt_or_eq.mp hk with hk | rfl
      · exact hallowed k hk
      · exact hlast
    · simp only [readStr, readString, hout, hcur]
  · refine ⟨out, out.length, ⟨hallowed, hreturned, .inr ⟨rfl, hfails⟩⟩, ?_⟩
    simp only [readStr, readString, hout, hcur]

section
variable {r : Reader} {limit : Option Nat} {out : List Byte} {c : Nat}

/-- What is consumed ends at or below R.TOT: the last turn had 8 bits left. -/
theorem Reader.ReadsString.end_le_tot (h : r.ReadsString limit out c) (hc : 0 < c) :
    r.cur.toNat + 8 * c ≤ r.tot.toNat := by
  obtain ⟨-, hlast⟩ := h.allowed (c - 1) (by omega)
  omega

/-- The limit counts every byte consumed, the terminator included (R134). -/
theorem Reader.ReadsString.le_limit {m : Nat} (h : r.ReadsString (some m) out c) : c ≤ m := by
  by_contra hover
  obtain ⟨hbelow, -⟩ := h.allowed m (Nat.not_le.mp hover)
  exact Nat.lt_irrefl m ((belowLimit_some m m).mp hbelow)

/-- No advance wraps: a read that consumes a byte ends at or below R.TOT, and one from above R.TOT consumes
none (R8). -/
theorem Reader.ReadsString.cur_toNat (h : r.ReadsString limit out c) :
    (BitVec.ofNat 64 (r.cur.toNat + 8 * c)).toNat = r.cur.toNat + 8 * c := by
  have hcur := r.cur.isLt
  have htot := r.tot.isLt
  have hend := h.end_le_tot
  rw [BitVec.toNat_ofNat]
  exact Nat.mod_eq_of_lt (by omega)

theorem Reader.ReadsString.returned_bit (h : r.ReadsString limit out c) {k j : Nat}
    (hk : k < out.length) (hj : j < 8) :
    (out.getD k 0).getLsbD j = r.buf.bit (r.cur.toNat + 8 * k + j) := by
  obtain ⟨hbyte, -⟩ := h.returned k hk
  rw [hbyte, r.byteAhead_getLsbD k hj]

/-- A read that stops without a zero byte has consumed the limit or has fewer than 8 bits left. -/
theorem Reader.ReadsString.limit_or_end (h : r.ReadsString limit out c) (hnot : ¬ r.turnAllowed limit c) :
    limit = some c ∨ r.tot.toNat < r.cur.toNat + 8 * c + 8 := by
  refine (Reader.not_turnAllowed hnot).imp_left ?_
  rintro ⟨m, rfl, hm⟩
  rw [Nat.le_antisymm hm h.le_limit]

end

/-! ## The two commands -/

/-- Answering and moving R.CUR leaves everything else as it was. -/
theorem respond_readerCur_frame (res : Word64) (out : List Byte) (s : State) (p : Word64) :
    s.readerFrame (respond res out { s with reader := { s.reader with cur := p } }) :=
  ⟨Reader.keepsBuffer_setCur _ _, rfl, rfl, rfl, rfl, rfl, rfl⟩

/-- R.RDSTR is a string read without a limit, R.RDSTRM one with the limit A (R152, R153). -/
theorem exec_stringRead {s : State} {i : Instr} {limit : Option Nat}
    (hi : (i = .rRdstr ∧ limit = none) ∨ (i = .rRdstrm ∧ limit = some s.a.toNat)) :
    exec i s = .next (readStr limit s) := by
  rcases hi with ⟨rfl, rfl⟩ | ⟨rfl, rfl⟩ <;> rfl

/-- Settles O24: both commands are one `readStr`, and `ReadsString` says what it consumes, what it returns
and where it stops. -/
theorem stringReadsStopAtZeroLimitOrEnd : Obligations.StringReadsStopAtZeroLimitOrEnd := by
  intro s i limit hi
  obtain ⟨out, c, hread, hstr⟩ := readStr_readsString limit s
  refine ⟨_, c, (exec_stringRead hi).trans (congrArg _ hstr), ⟨rfl, rfl, rfl, rfl, rfl⟩,
    respond_readerCur_frame _ _ _ _, hread.cur_toNat, hread.end_le_tot, ?_, ?_, ?_⟩
  · rintro m rfl
    exact hread.le_limit
  · intro k hk
    exact ⟨(hread.returned k hk).2, fun j hj => hread.returned_bit hk hj⟩
  · rcases hread.stopped with ⟨hc, hzero⟩ | ⟨hc, hnot⟩
    · refine .inl ⟨hc, fun j hj => ?_⟩
      rw [respond_out, ← s.reader.byteAhead_getLsbD out.length hj, hzero]
      exact BitVec.getLsbD_zero
    · exact .inr ⟨hc, hread.limit_or_end hnot⟩

end Sys2Proof.Machine

/-! Proofs about the errors of spec/60_exceptions.md: which command raises which error (R241 to R244), and
what each leaves of the two units (R245 to R247). -/

namespace Sys2Proof.Machine

/-! ## The error of a failed command -/

/-- The causes of the errors: command i in state s can fail with an error of this kind only for one of
these reasons (R241 to R244). -/
inductive RaisedBy (i : Instr) (s : State) : ErrorKind → Prop
  | readRange (n : Nat) (hu : unitOf i = .reader) (hn : accessBits i s = some n) :
      RaisedBy i s (.outOfBounds (s.reader.cur.toNat + n - s.reader.tot.toNat))
  | writeRange (n : Nat) (hu : unitOf i = .writer) (hn : accessBits i s = some n) :
      RaisedBy i s (.outOfBounds (s.writer.cur.toNat + n - s.writer.tot.toNat))
  | width (w : Nat) (hi : i = .rRdbits w ∨ i = .rRdsbits w ∨ i = .wWrbits w ∨ i = .wWrsbits w)
      (hw : w = 0 ∨ 64 < w) : RaisedBy i s .unsupportedWidth
  | runLength (hi : i = .wWrrun) (hl : lengthIn s ≠ ceil8 (countA s)) : RaisedBy i s .illegalCommand
  | readerLimit (hi : i = .rNew) (hl : s.limits.rbufMaxBytes.toNat < s.inp.length) :
      RaisedBy i s .resourceLimit
  | writerLimit (hi : i = .wNew) (hl : s.limits.wbufMaxBytes.toNat < s.a.toNat + 4) :
      RaisedBy i s .resourceLimit

/-- A command that does not answer ST = 0 has raised an error of its own unit: it did nothing but `raise`
(R13), and the error has one of its causes. -/
theorem exec_ok_or_raises {i : Instr} {s t : State} (h : exec i s = .next t) :
    t.st = 0 ∨ ∃ e, RaisedBy i s e ∧ t = raise (unitOf i) e s := by
  cases execCase_of_exec h with
  | toRes n ext hu hn =>
    by_cases hfit : s.readFits n
    · exact .inl (by rw [readRes_fits n ext s hfit, respond_st])
    · exact .inr ⟨_, .readRange n hu hn, by rw [readRes_overrun n ext s hfit, hu, raise_reader_eq]⟩
  | toOut n k hu hn =>
    by_cases hfit : s.readFits n
    · exact .inl (by rw [readOut_fits n k s hfit, respond_st])
    · exact .inr ⟨_, .readRange n hu hn, by rw [readOut_overrun n k s hfit, hu, raise_reader_eq]⟩
  | write n v hu hn =>
    by_cases hfit : s.writeFits n
    · exact .inl (by rw [writeData_fits n v s hfit, respond_st])
    · exact .inr ⟨_, .writeRange n hu hn, by rw [writeData_overrun n v s hfit, hu]; rfl⟩
  | readWidth w hw hi =>
    exact .inr ⟨_, .width w (hi.imp_right .inl) hw, by rcases hi with rfl | rfl <;> rfl⟩
  | writeWidth w hw hi =>
    exact .inr ⟨_, .width w (.inr (.inr hi)) hw, by rcases hi with rfl | rfl <;> rfl⟩
  | runLength hi hl => exact .inr ⟨_, .runLength hi hl, by rw [hi]; rfl⟩
  | readerLimit hi hl => exact .inr ⟨_, .readerLimit hi hl, by rw [hi]; rfl⟩
  | writerLimit hi hl => exact .inr ⟨_, .writerLimit hi hl, by rw [hi]; rfl⟩
  | str | newReader | newWriter | moveReader | moveWriter | query => exact .inl rfl

/-- A command that answers an error's code c has raised an error of that code. -/
theorem exec_raises_of_st {i : Instr} {s t : State} (h : exec i s = .next t) (hst : t.st ≠ 0) :
    ∃ e, RaisedBy i s e ∧ statusCode e = t.st ∧ t = raise (unitOf i) e s := by
  obtain ⟨e, hcause, rfl⟩ := (exec_ok_or_raises h).resolve_left hst
  exact ⟨e, hcause, (raise_st _ e s).symm, rfl⟩

/-! ## What an error leaves unchanged -/

theorem raise_answers (u : PortUnit) (e : ErrorKind) (s : State) :
    (raise u e s).answers (statusCode e) (overflowCode e).toNat 0 [] := by
  simp [State.answers]

theorem raise_keepsPort (u : PortUnit) (e : ErrorKind) (s : State) : s.keepsPort (raise u e s) := by
  simp [State.keepsPort]

/-- Every error of the reader unit changes neither unit (R245). -/
theorem raise_reader_onlyAnswers (e : ErrorKind) (s : State) : s.onlyAnswers (raise .reader e s) :=
  ⟨rfl, rfl, raise_keepsPort _ e s⟩

/-- An error kind that does not poison changes neither unit, whichever raised it (R247). -/
theorem raise_onlyAnswers_of_not_poisons {e : ErrorKind} (he : poisons e = false) (u : PortUnit)
    (s : State) : s.onlyAnswers (raise u e s) :=
  ⟨raise_reader u e s, by simp [he], raise_keepsPort u e s⟩

/-- A writer error that poisons pins the writer (R246). -/
theorem raise_writer_of_poisons {e : ErrorKind} (he : poisons e = true) (s : State) :
    (raise .writer e s).writer = s.writer.pin := by
  simp [he]

/-- A writer error changes at most the cursor, the mark and the poison flag (R246, R247). -/
theorem raise_writerFrame (e : ErrorKind) (s : State) : s.writerFrame (raise .writer e s) := by
  refine ⟨?_, raise_reader _ e s, raise_keepsPort _ e s⟩
  cases he : poisons e <;> simp [Writer.keepsSize, he]

/-- The codes of R240 fall in two: 1 and 2 poison the writer (R246), 3 and 4 do not (R247). -/
theorem poisons_iff_statusCode (e : ErrorKind) :
    poisons e = true ↔ statusCode e = 1 ∨ statusCode e = 2 := by
  cases e <;> simp [poisons, statusCode]

theorem poisons_of_statusCode_three_or_four {e : ErrorKind} (h : statusCode e = 3 ∨ statusCode e = 4) :
    poisons e = false := by
  cases e with
  | outOfBounds | unsupportedWidth => simp [statusCode] at h
  | illegalCommand | resourceLimit => rfl

/-! ## UnsupportedWidth and the reader's errors -/

/-- A primitive field command checks its width before anything else (R242, R248). -/
theorem exec_unsupportedWidth {i : Instr} {w : Nat}
    (hi : i = .rRdbits w ∨ i = .rRdsbits w ∨ i = .wWrbits w ∨ i = .wWrsbits w) (hw : w = 0 ∨ 64 < w)
    (s : State) : exec i s = .next (raise (unitOf i) .unsupportedWidth s) := by
  have hunsupported : ¬ supportedWidth w = true := by
    intro h
    obtain ⟨hlow, hhigh⟩ : 1 ≤ w ∧ w ≤ 64 := of_decide_eq_true h
    omega
  rcases hi with rfl | rfl | rfl | rfl <;> exact congrArg Host.Outcome.next (if_neg hunsupported)

/-- Settles O25: an unsupported width is raised before the range is looked at, and ST = 2 is the code of no
other error. -/
theorem unsupportedWidthsFail : Obligations.UnsupportedWidthsFail := by
  refine ⟨fun s w hw => ⟨fun i hi => ?_, fun i hi => ?_⟩, fun i s t hexec hst => ?_⟩
  · have hu : unitOf i = .reader := by rcases hi with rfl | rfl <;> rfl
    have hfail := exec_unsupportedWidth (hi.imp_right .inl) hw s
    rw [hu] at hfail
    exact ⟨_, hfail, raise_answers _ _ s, raise_reader_onlyAnswers _ s⟩
  · have hu : unitOf i = .writer := by rcases hi with rfl | rfl <;> rfl
    have hfail := exec_unsupportedWidth (.inr (.inr hi)) hw s
    rw [hu] at hfail
    exact ⟨_, hfail, raise_answers _ _ s, raise_writerFrame _ s, raise_writer_of_poisons rfl s⟩
  · obtain ⟨e, hcause, hcode, -⟩ := exec_raises_of_st hexec (by simp [hst])
    rw [hst] at hcode
    cases hcause with
    | width w hi hw => exact ⟨w, hi, hw⟩
    | readRange | writeRange | runLength | readerLimit | writerLimit => simp [statusCode] at hcode

/-- Settles O26: a failed reader command did nothing but raise an error of the reader unit. -/
theorem readerErrorsChangeNothing : Obligations.ReaderErrorsChangeNothing := by
  intro i s t hu hexec hst
  obtain ⟨e, -, -, rfl⟩ := exec_raises_of_st hexec (by rcases hst with h | h <;> simp [h])
  rw [hu]
  exact raise_reader_onlyAnswers e s

/-! ## The writer's errors -/

/-- Settles O32: a writer command with one of the two codes raised an error that poisons, and its overflow
is that of the check at entry. -/
theorem writerErrorsPinAndPoison : Obligations.WriterErrorsPinAndPoison := by
  intro i s t hu hexec hst
  obtain ⟨e, hcause, hcode, rfl⟩ := exec_raises_of_st hexec (by rcases hst with h | h <;> simp [h])
  have hpoisons : poisons e = true := (poisons_iff_statusCode e).mpr (hcode ▸ hst)
  rw [hu] at hcode ⊢
  refine ⟨raise_writer_of_poisons hpoisons s, fun hone => ?_, raise_writerFrame e s⟩
  rw [hone] at hcode
  cases hcause with
  | writeRange n _ hn => exact ⟨n, hn, raise_ovf _ _ s⟩
  | readRange n hr => cases hr.symm.trans hu
  | width | runLength | readerLimit | writerLimit => simp [statusCode] at hcode

/-! ## ResourceLimit and IllegalCommand -/

/-- R.NEW beyond RBUF_MAX_BYTES fails with ResourceLimit (R200, R244). -/
theorem exec_rNew_exceeds {s : State} (h : s.limits.rbufMaxBytes.toNat < s.inp.length) :
    exec .rNew s = .next (raise .reader .resourceLimit s) :=
  congrArg Host.Outcome.next (if_pos h)

/-- W.NEW beyond WBUF_MAX_BYTES fails with ResourceLimit (R201, R244). -/
theorem exec_wNew_exceeds {s : State} (h : s.limits.wbufMaxBytes.toNat < s.a.toNat + 4) :
    exec .wNew s = .next (raise .writer .resourceLimit s) :=
  congrArg Host.Outcome.next (if_pos h)

/-- Settles O47: both constructions test their limit first, and ST = 4 is the code of no other error. -/
theorem resourceLimitOnConstructionOnly : Obligations.ResourceLimitOnConstructionOnly := by
  refine ⟨fun s hover => ?_, fun s hover => ?_, fun i s t hexec hst => ?_⟩
  · exact ⟨_, exec_rNew_exceeds hover, raise_answers _ _ s, raise_reader_onlyAnswers _ s⟩
  · exact ⟨_, exec_wNew_exceeds hover, raise_answers _ _ s, raise_onlyAnswers_of_not_poisons rfl _ s⟩
  · obtain ⟨e, hcause, hcode, -⟩ := exec_raises_of_st hexec (by simp [hst])
    rw [hst] at hcode
    cases hcause with
    | readerLimit hi hl => exact .inl ⟨hi, hl⟩
    | writerLimit hi hl => exact .inr ⟨hi, hl⟩
    | readRange | writeRange | width | runLength => simp [statusCode] at hcode

/-- A step that has taken an illegal word ended it with IllegalCommand (R243). -/
theorem step_illegal_eq {s t : State} {x : Transaction} {rest : List HostEvent} {e : DecodeError}
    (hp : s.pending = .command x :: rest) (hstep : step s = .next t) (hdec : decode x.cmd = .error e) :
    t = respondError .illegalCommand (accept x rest s) := by
  rcases step_cases s t hstep with ⟨hnone, -⟩ | ⟨_, hreset, -⟩ | ⟨y, _, i, hy, -, hok, -⟩ |
    ⟨y, later, _, hy, -, -, ht⟩
  · cases hnone.symm.trans hp
  · cases hreset.symm.trans hp
  · cases hy.symm.trans hp
    cases hok.symm.trans hdec
  · cases hy.symm.trans hp
    exact ht

/-- Settles O48: the two codes are those of the errors that do not poison, and an illegal word reaches no
command. -/
theorem illegalAndResourceErrorsChangeNoUnit : Obligations.IllegalAndResourceErrorsChangeNoUnit := by
  refine ⟨fun i s t hexec hst => ?_, fun s t x rest e hp hstep hdec => ?_⟩
  · obtain ⟨e, -, hcode, rfl⟩ := exec_raises_of_st hexec (by rcases hst with h | h <;> simp [h])
    exact raise_onlyAnswers_of_not_poisons (poisons_of_statusCode_three_or_four (hcode ▸ hst)) _ s
  · rw [step_illegal_eq hp hstep hdec]
    exact ⟨rfl, rfl, rfl⟩

end Sys2Proof.Machine

/-! Proofs about the encoder of spec/30_encoding.md: it inverts the decoder on every legal word (R70, R71,
R76). -/

namespace Sys2Proof.Machine

/-! ## The fields of an encoded word -/

theorem encode_getLsbD (i : Instr) (j : Nat) :
    (encode i).getLsbD j =
      if j < 8 then (opcode i).getLsbD j
      else if j - 8 < 7 then (BitVec.ofNat 7 (widthField i)).getLsbD (j - 8) else false := by
  have hfields : (encode i).getLsbD j =
      (0#17 ++ BitVec.ofNat 7 (widthField i) ++ opcode i : BitVec (17 + 7 + 8)).getLsbD j := rfl
  rw [hfields, BitVec.getLsbD_append, BitVec.getLsbD_append, BitVec.getLsbD_zero]

theorem cmdRsv_encode (i : Instr) : cmdRsv (encode i) = 0 := by
  apply BitVec.eq_of_getLsbD_eq
  intro j hj
  rw [cmdRsv, BitVec.getLsbD_extractLsb', encode_getLsbD, if_neg (by omega), if_neg (by omega)]
  simp

theorem cmdWid_encode (i : Instr) : cmdWid (encode i) = BitVec.ofNat 7 (widthField i) := by
  apply BitVec.eq_of_getLsbD_eq
  intro j hj
  rw [cmdWid, BitVec.getLsbD_extractLsb', encode_getLsbD, if_neg (by omega), if_pos (by omega),
    Nat.add_sub_cancel_left, decide_eq_true hj, Bool.true_and]

theorem cmdOp_encode (i : Instr) : cmdOp (encode i) = opcode i := by
  apply BitVec.eq_of_getLsbD_eq
  intro j hj
  rw [cmdOp, BitVec.getLsbD_extractLsb', encode_getLsbD, if_pos (by omega), Nat.zero_add,
    decide_eq_true hj, Bool.true_and]

/-- A word is its three fields, RSV above WID above OP (R71). -/
theorem append_fields (cmd : Word) : cmdRsv cmd ++ cmdWid cmd ++ cmdOp cmd = cmd := by
  apply BitVec.eq_of_getLsbD_eq
  intro j hj
  simp only [cmdRsv, cmdWid, cmdOp, BitVec.getLsbD_append, BitVec.getLsbD_extractLsb']
  by_cases hop : j < 8
  · simp [hop]
  · by_cases hwid : j - 8 < 7
    · simp [hop, hwid, show 8 + (j - 8) = j by omega]
    · simp [hop, hwid, show 15 + (j - 8 - 7) = j by omega, show j - 8 - 7 < 17 by omega]

/-! ## Encoding and decoding -/

/-- A command is well formed exactly when its width fits WID (R72). -/
theorem Instr.wf_iff (i : Instr) : i.wf = true ↔ widthField i < 128 := by
  cases i <;> simp [Instr.wf, widthField]

/-- The table of R76 read forwards: a command's OP and WID name it. -/
theorem decodeOp_opcode (i : Instr) : decodeOp (opcode i).toNat (widthField i) = .ok i := by
  cases i <;> rfl

/-- Settles O1: the decoder sees RSV = 0 and the command's own OP and WID, which 7 bits hold. -/
theorem decodeEncodeRoundTrip : Obligations.DecodeEncodeRoundTrip := by
  intro i hwf
  have hwid : (cmdWid (encode i)).toNat = widthField i := by
    rw [cmdWid_encode, BitVec.toNat_ofNat]
    exact Nat.mod_eq_of_lt ((Instr.wf_iff i).mp hwf)
  refine (decode_eq_ok_iff _ i).mpr ⟨cmdRsv_encode i, ?_⟩
  rw [cmdOp_encode, hwid, decodeOp_opcode]

/-- Settles O2: the three fields of a word that decodes are those the encoder writes. -/
theorem decodedWordIsItsEncoding : Obligations.DecodedWordIsItsEncoding := by
  intro cmd i hdec
  obtain ⟨hrsv, hop, hwid⟩ := fields_of_decode_eq_ok hdec
  refine ⟨(Instr.wf_iff i).mpr (hwid ▸ (cmdWid cmd).isLt), ?_⟩
  calc encode i = cmdRsv cmd ++ cmdWid cmd ++ cmdOp cmd := by
        rw [encode, hrsv, hop, ← hwid, BitVec.ofNat_toNat, BitVec.setWidth_eq]
    _ = cmd := append_fields cmd

/-- Every command is a case of the family UnitBit. -/
theorem opcode_unitBit (i : Instr) : (opcode i).getLsbD 5 = decide (unitOf i = .writer) := by
  cases i
  exacts [Laws.UnitBit.rNew, Laws.UnitBit.rRdbits _, Laws.UnitBit.rRdsbits _, Laws.UnitBit.rRdu8,
    Laws.UnitBit.rRdu16, Laws.UnitBit.rRdu32, Laws.UnitBit.rRdu64, Laws.UnitBit.rRdi8,
    Laws.UnitBit.rRdi16, Laws.UnitBit.rRdi32, Laws.UnitBit.rRdi64, Laws.UnitBit.rRdf32,
    Laws.UnitBit.rRdf64, Laws.UnitBit.rRdbytes, Laws.UnitBit.rRdrun, Laws.UnitBit.rRdstr,
    Laws.UnitBit.rRdstrm, Laws.UnitBit.rSeek, Laws.UnitBit.rReset, Laws.UnitBit.rBitsread,
    Laws.UnitBit.rData, Laws.UnitBit.wNew, Laws.UnitBit.wWrbits _, Laws.UnitBit.wWrsbits _,
    Laws.UnitBit.wWru8, Laws.UnitBit.wWru16, Laws.UnitBit.wWru32, Laws.UnitBit.wWru64,
    Laws.UnitBit.wWri8, Laws.UnitBit.wWri16, Laws.UnitBit.wWri32, Laws.UnitBit.wWri64,
    Laws.UnitBit.wWrf32, Laws.UnitBit.wWrf64, Laws.UnitBit.wWrbytes, Laws.UnitBit.wWrrun,
    Laws.UnitBit.wWrstr, Laws.UnitBit.wSeek, Laws.UnitBit.wReset, Laws.UnitBit.wBitswritten,
    Laws.UnitBit.wByteswritten, Laws.UnitBit.wData]

/-- Settles O3: bit 5 of the word is bit 5 of its command's opcode. -/
theorem opcodeBitFiveSelectsTheUnit : Obligations.OpcodeBitFiveSelectsTheUnit := by
  intro cmd i hdec
  obtain ⟨-, hop, -⟩ := fields_of_decode_eq_ok hdec
  calc cmd.getLsbD 5 = (cmdOp cmd).getLsbD 5 := by simp [cmdOp]
    _ = decide (unitOf i = .writer) := by rw [hop, opcode_unitBit]

/-- Settles O7: each legal word is its command's encoding, and the two illegal ones are evaluated. -/
theorem writtenOutWordsDecode : Obligations.WrittenOutWordsDecode :=
  ⟨decodeEncodeRoundTrip .rNew rfl, decodeEncodeRoundTrip (.rRdbits 3) rfl,
    decodeEncodeRoundTrip (.rRdsbits 64) rfl, decodeEncodeRoundTrip (.wWrbits 127) rfl,
    decodeEncodeRoundTrip (.wWrsbits 5) rfl, decodeEncodeRoundTrip .rRdi32 rfl,
    decodeEncodeRoundTrip .wWrf64 rfl, decodeEncodeRoundTrip .wWrrun rfl,
    decodeEncodeRoundTrip .wData rfl, rfl, rfl⟩

end Sys2Proof.Machine

/-! Proofs about what a command reads and changes (spec/00_scope.md R4; spec/20_memory.md R59, R64, R65;
spec/30_encoding.md R73, R74): the unit it names, the operands of its row, and the limits. -/

namespace Sys2Proof.Machine

/-! ## The effect of a command -/

/-- The state s after a command of unit u that ended in t: that unit and the response registers are those of
t, and everything else is as in s. -/
def State.takes (s : State) (u : PortUnit) (t : State) : State :=
  { s with
    reader := match u with | .reader => t.reader | .writer => s.reader
    writer := match u with | .reader => s.writer | .writer => t.writer
    st := t.st
    ovf := t.ovf
    res := t.res
    out := t.out
    responded := t.responded }

theorem State.takes_keepsPort (s t : State) (u : PortUnit) : s.keepsPort (s.takes u t) :=
  ⟨rfl, rfl, rfl, rfl, rfl⟩

/-- Both states hold the same unit u. -/
def State.agreesOn (s s' : State) (u : PortUnit) : Prop :=
  match u with
  | .reader => s'.reader = s.reader
  | .writer => s'.writer = s.writer

theorem State.agreesOn_refl (s : State) (u : PortUnit) : s.agreesOn s u := by
  cases u <;> rfl

section
variable {s s' : State}

theorem respond_reader_takes {r r' : Reader} {res res' : Word64} {out out' : List Byte} (hr : r' = r)
    (hres : res' = res) (hout : out' = out) :
    respond res' out' { s' with reader := r' } =
      s'.takes .reader (respond res out { s with reader := r }) := by
  subst hr hres hout
  rfl

theorem respond_writer_takes {w w' : Writer} {res res' : Word64} {out out' : List Byte} (hw : w' = w)
    (hres : res' = res) (hout : out' = out) :
    respond res' out' { s' with writer := w' } =
      s'.takes .writer (respond res out { s with writer := w }) := by
  subst hw hres hout
  rfl

theorem raise_takes (u : PortUnit) (e : ErrorKind) (h : s.agreesOn s' u) :
    raise u e s' = s'.takes u (raise u e s) := by
  cases u with
  | reader =>
    have hr : s'.reader = s.reader := h
    simp [raise, errorEntry, respondError, State.takes, hr]
  | writer =>
    have hw : s'.writer = s.writer := h
    cases hp : poisons e <;> simp [raise, errorEntry, respondError, State.takes, hp, hw]

/-- A choice by a condition that both states decide alike. -/
theorem ite_takes {c c' : Prop} [Decidable c] [Decidable c'] {u : PortUnit} {t t' q q' : State}
    (hc : c' ↔ c) (ht : t' = s'.takes u t) (hq : q' = s'.takes u q) :
    (if c' then t' else q') = s'.takes u (if c then t else q) := by
  rw [apply_ite (s'.takes u)]
  exact if_congr hc ht hq

theorem readRes_takes (n : Nat) (ext : Nat → Word64) (hr : s'.reader = s.reader) :
    readRes n ext s' = s'.takes .reader (readRes n ext s) := by
  by_cases hfit : s.readFits n
  · rw [readRes_fits n ext s hfit, readRes_fits n ext s' (by rwa [State.readFits, hr]), hr]
    rfl
  · rw [readRes_overrun n ext s hfit, readRes_overrun n ext s' (by rwa [State.readFits, hr]), hr]
    exact raise_takes .reader _ hr

theorem readOut_takes {n n' k k' : Nat} (hn : n' = n) (hk : k' = k) (hr : s'.reader = s.reader) :
    readOut n' k' s' = s'.takes .reader (readOut n k s) := by
  subst hn hk
  by_cases hfit : s.readFits n'
  · rw [readOut_fits n' k' s hfit, readOut_fits n' k' s' (by rwa [State.readFits, hr]), hr]
    rfl
  · rw [readOut_overrun n' k' s hfit, readOut_overrun n' k' s' (by rwa [State.readFits, hr]), hr]
    exact raise_takes .reader _ hr

theorem readStr_takes {limit limit' : Option Nat} (hlimit : limit' = limit) (hr : s'.reader = s.reader) :
    readStr limit' s' = s'.takes .reader (readStr limit s) := by
  subst hlimit
  simp only [readStr, readString, hr]
  rfl

theorem writeData_takes {n n' v v' : Nat} (hn : n' = n) (hv : v' = v) (hw : s'.writer = s.writer) :
    writeData n' v' s' = s'.takes .writer (writeData n v s) := by
  subst hn hv
  by_cases hfit : s.writeFits n'
  · rw [writeData_fits n' v' s hfit, writeData_fits n' v' s' (by rwa [State.writeFits, hw]), hw]
    rfl
  · rw [writeData_overrun n' v' s hfit, writeData_overrun n' v' s' (by rwa [State.writeFits, hw]), hw]
    rfl

/-- A command does the same in two states that agree on its unit, the limits and the operands of its row of
R76, and it changes nothing but its unit and the response. -/
theorem exec_takes (i : Instr) (h : s.agreesOn s' (unitOf i)) (hl : s'.limits = s.limits)
    (hA : usesA i = true → s'.a = s.a) (hIn : usesIn i = true → s'.inp = s.inp) :
    ∃ t, exec i s = .next t ∧ exec i s' = .next (s'.takes (unitOf i) t) := by
  have hcount : usesA i = true → countA s' = countA s := fun hu => congrArg BitVec.toNat (hA hu)
  have hlength : usesIn i = true → lengthIn s' = lengthIn s := fun hu => congrArg List.length (hIn hu)
  have hvalue : usesA i = true → ∀ n, valueA n s' = valueA n s := fun hu n => by
    rw [valueA, valueA, hA hu]
  have hsigned : usesA i = true → ∀ n, signedValueA n s' = signedValueA n s := fun hu n => by
    rw [signedValueA, signedValueA, hA hu]
  cases i with
  | rNew =>
    exact ⟨_, rfl, congrArg Host.Outcome.next <| ite_takes (by rw [hlength rfl, hl])
      (raise_takes _ _ h) (respond_reader_takes (by rw [hIn rfl]) rfl rfl)⟩
  | wNew =>
    exact ⟨_, rfl, congrArg Host.Outcome.next <| ite_takes (by rw [hcount rfl, hl])
      (raise_takes _ _ h) (respond_writer_takes (by rw [hcount rfl]) rfl rfl)⟩
  | rRdbits w | rRdsbits w =>
    exact ⟨_, rfl, congrArg Host.Outcome.next <| ite_takes Iff.rfl (readRes_takes _ _ h)
      (raise_takes _ _ h)⟩
  | wWrbits w =>
    exact ⟨_, rfl, congrArg Host.Outcome.next <| ite_takes Iff.rfl
      (writeData_takes rfl (hvalue rfl _) h) (raise_takes _ _ h)⟩
  | wWrsbits w =>
    exact ⟨_, rfl, congrArg Host.Outcome.next <| ite_takes Iff.rfl
      (writeData_takes rfl (hsigned rfl _) h) (raise_takes _ _ h)⟩
  | wWrrun =>
    exact ⟨_, rfl, congrArg Host.Outcome.next <| ite_takes (by rw [hlength rfl, hcount rfl])
      (writeData_takes (hcount rfl) (by rw [hIn rfl, hcount rfl]) h) (raise_takes _ _ h)⟩
  | rRdu8 | rRdu16 | rRdu32 | rRdu64 | rRdi8 | rRdi16 | rRdi32 | rRdi64 | rRdf32 | rRdf64 =>
    exact ⟨_, rfl, congrArg Host.Outcome.next (readRes_takes _ _ h)⟩
  | rRdbytes =>
    exact ⟨_, rfl, congrArg Host.Outcome.next
      (readOut_takes (congrArg (8 * ·) (hcount rfl)) (hcount rfl) h)⟩
  | rRdrun =>
    exact ⟨_, rfl, congrArg Host.Outcome.next
      (readOut_takes (hcount rfl) (congrArg ceil8 (hcount rfl)) h)⟩
  | rRdstr => exact ⟨_, rfl, congrArg Host.Outcome.next (readStr_takes rfl h)⟩
  | rRdstrm => exact ⟨_, rfl, congrArg Host.Outcome.next (readStr_takes (congrArg some (hcount rfl)) h)⟩
  | wWru8 | wWru16 | wWru32 | wWru64 | wWri32 | wWri64 | wWrf32 | wWrf64 =>
    exact ⟨_, rfl, congrArg Host.Outcome.next (writeData_takes rfl (hvalue rfl _) h)⟩
  | wWri8 | wWri16 =>
    exact ⟨_, rfl, congrArg Host.Outcome.next (writeData_takes rfl (hsigned rfl _) h)⟩
  | wWrbytes | wWrstr =>
    exact ⟨_, rfl, congrArg Host.Outcome.next
      (writeData_takes (by rw [hlength rfl]) (by rw [hIn rfl]) h)⟩
  | rSeek =>
    have hr : s'.reader = s.reader := h
    exact ⟨_, rfl, congrArg Host.Outcome.next (respond_reader_takes (by rw [hr, hA rfl]) rfl rfl)⟩
  | rReset =>
    have hr : s'.reader = s.reader := h
    exact ⟨_, rfl, congrArg Host.Outcome.next (respond_reader_takes (by rw [hr]) rfl rfl)⟩
  | rBitsread =>
    exact ⟨_, rfl, congrArg Host.Outcome.next (respond_reader_takes h (congrArg Reader.cur h) rfl)⟩
  | rData =>
    exact ⟨_, rfl, congrArg Host.Outcome.next
      (respond_reader_takes h rfl (congrArg (fun r => r.buf.bytes 0 r.len.toNat) h))⟩
  | wSeek =>
    have hw : s'.writer = s.writer := h
    exact ⟨_, rfl, congrArg Host.Outcome.next
      (respond_writer_takes (by rw [hw, hcount rfl]) rfl rfl)⟩
  | wReset =>
    have hw : s'.writer = s.writer := h
    exact ⟨_, rfl, congrArg Host.Outcome.next (respond_writer_takes (by rw [hw]) rfl rfl)⟩
  | wBitswritten =>
    exact ⟨_, rfl, congrArg Host.Outcome.next (respond_writer_takes h (congrArg Writer.bw h) rfl)⟩
  | wByteswritten =>
    exact ⟨_, rfl, congrArg Host.Outcome.next
      (respond_writer_takes h (congrArg (fun w => BitVec.ofNat 64 (ceil8 w.bw.toNat)) h) rfl)⟩
  | wData =>
    exact ⟨_, rfl, congrArg Host.Outcome.next
      (respond_writer_takes h rfl (congrArg (fun w => w.buf.bytes 0 (ceil8 w.bw.toNat)) h))⟩

end

/-- What a command does in one state tells what it does in every state that agrees with it. -/
theorem exec_of_agreesOn {i : Instr} {s t : State} (s' : State) (hexec : exec i s = .next t)
    (h : s.agreesOn s' (unitOf i)) (hl : s'.limits = s.limits) (hA : usesA i = true → s'.a = s.a)
    (hIn : usesIn i = true → s'.inp = s.inp) : exec i s' = .next (s'.takes (unitOf i) t) := by
  obtain ⟨q, hq, hs'⟩ := exec_takes i h hl hA hIn
  cases hq.symm.trans hexec
  exact hs'

/-- A command that answers changes its unit and the response alone. -/
theorem takes_of_exec {i : Instr} {s t : State} (h : exec i s = .next t) : t = s.takes (unitOf i) t :=
  Host.Outcome.next.inj (h.symm.trans
    (exec_of_agreesOn s h (s.agreesOn_refl _) rfl (fun _ => rfl) (fun _ => rfl)))

theorem keepsPort_of_exec {i : Instr} {s t : State} (h : exec i s = .next t) : s.keepsPort t :=
  takes_of_exec h ▸ s.takes_keepsPort t (unitOf i)

theorem writer_of_exec_reader {i : Instr} {s t : State} (hu : unitOf i = .reader)
    (h : exec i s = .next t) : t.writer = s.writer := by
  rw [takes_of_exec h, hu]
  rfl

theorem reader_of_exec_writer {i : Instr} {s t : State} (hu : unitOf i = .writer)
    (h : exec i s = .next t) : t.reader = s.reader := by
  rw [takes_of_exec h, hu]
  rfl

/-! ## The two units and the operands -/

/-- Settles O15: the other unit is neither in what a command reads nor in what it changes. -/
theorem unitsDoNotInterfere : Obligations.UnitsDoNotInterfere := by
  refine ⟨fun i s w hu => ?_, fun i s r hu => ?_⟩
  · obtain ⟨t, hexec, -⟩ := exec_cases i s
    refine ⟨t, hexec, writer_of_exec_reader hu hexec, ?_⟩
    rw [exec_of_agreesOn { s with writer := w } hexec (by rw [hu]; rfl) rfl (fun _ => rfl)
      (fun _ => rfl), hu]
    conv_rhs => rw [takes_of_exec hexec, hu]
    rfl
  · obtain ⟨t, hexec, -⟩ := exec_cases i s
    refine ⟨t, hexec, reader_of_exec_writer hu hexec, ?_⟩
    rw [exec_of_agreesOn { s with reader := r } hexec (by rw [hu]; rfl) rfl (fun _ => rfl)
      (fun _ => rfl), hu]
    conv_rhs => rw [takes_of_exec hexec, hu]
    rfl

/-- Settles O16: an operand that the command's row does not name is not in what the command reads. -/
theorem unusedOperandsAreIgnored : Obligations.UnusedOperandsAreIgnored := by
  refine ⟨fun i s x hA => ?_, fun i s bytes hIn => ?_⟩
  · obtain ⟨t, hexec, -⟩ := exec_cases i s
    refine ⟨t, hexec, ?_⟩
    rw [exec_of_agreesOn { s with a := x } hexec (s.agreesOn_refl _) rfl
      (fun h => absurd (h.symm.trans hA) (by simp)) (fun _ => rfl)]
    conv_rhs => rw [takes_of_exec hexec]
    rfl
  · obtain ⟨t, hexec, -⟩ := exec_cases i s
    refine ⟨t, hexec, ?_⟩
    rw [exec_of_agreesOn { s with inp := bytes } hexec (s.agreesOn_refl _) rfl (fun _ => rfl)
      (fun h => absurd (h.symm.trans hIn) (by simp))]
    conv_rhs => rw [takes_of_exec hexec]
    rfl

/-- A reader that differs in R.CUR alone, with R.CUR put back. -/
theorem Reader.restore_of_keepsBuffer {r q : Reader} (h : r.keepsBuffer q) :
    { q with cur := r.cur } = r := by
  obtain ⟨-, hbuf, hlen, htot⟩ := h
  cases q
  subst hbuf hlen htot
  rfl

/-- Settles O18: with its cursor put back the reader is the one the command started from; only R.NEW has
replaced it, and it reads no reader. -/
theorem readsAreRepeatable : Obligations.ReadsAreRepeatable := by
  intro i s t hu hexec
  obtain ⟨-, ha, hinp, -, hlimits⟩ := keepsPort_of_exec hexec
  by_cases hi : i = .rNew
  · subst hi
    by_cases hfit : s.inp.length ≤ s.limits.rbufMaxBytes.toNat
    · cases (exec_rNew_fits s hfit).symm.trans hexec
      exact exec_rNew_fits _ hfit
    · cases (exec_rNew_exceeds (Nat.not_le.mp hfit)).symm.trans hexec
      exact exec_rNew_exceeds (Nat.not_le.mp hfit)
  · rw [Reader.restore_of_keepsBuffer (exec_keepsBuffer hexec hi)]
    rw [exec_of_agreesOn { t with reader := s.reader } hexec (by rw [hu]; rfl) hlimits
      (fun _ => ha) (fun _ => hinp), hu]
    rfl

/-! ## Every command and every step -/

/-- A command ends with `respond` or `respondError` (R13). -/
theorem exec_responds {i : Instr} {s t : State} (h : exec i s = .next t) :
    (∃ r o q, t = respond r o q) ∨ ∃ e q, t = respondError e q := by
  cases execCase_of_exec h with
  | toRes n ext =>
    by_cases hfit : s.readFits n
    · exact .inl ⟨_, _, _, readRes_fits n ext s hfit⟩
    · exact .inr ⟨_, _, readRes_overrun n ext s hfit⟩
  | toOut n k =>
    by_cases hfit : s.readFits n
    · exact .inl ⟨_, _, _, readOut_fits n k s hfit⟩
    · exact .inr ⟨_, _, readOut_overrun n k s hfit⟩
  | write n v =>
    by_cases hfit : s.writeFits n
    · exact .inl ⟨_, _, _, writeData_fits n v s hfit⟩
    · exact .inr ⟨_, _, writeData_overrun n v s hfit⟩
  | str | newReader | newWriter | moveReader | moveWriter | query => exact .inl ⟨_, _, _, rfl⟩
  | readWidth | writeWidth | runLength | readerLimit | writerLimit => exact .inr ⟨_, _, rfl⟩

theorem responded_of_exec {i : Instr} {s t : State} (h : exec i s = .next t) : t.responded = true := by
  rcases exec_responds h with ⟨_, _, _, rfl⟩ | ⟨_, _, rfl⟩ <;> rfl

section
variable {s : State} {x : Transaction} {rest : List HostEvent}

/-- A transaction that the port carries and whose word decodes is run (R64, R70). -/
theorem step_of_decode_eq_ok {i : Instr} (hp : s.pending = .command x :: rest)
    (hin : x.inp.length ≤ s.limits.inMaxBytes.toNat) (hdec : decode x.cmd = .ok i) :
    step s = exec i (accept x rest s) := by
  rw [step_command hp hin, runCommand, accept_cmd, hdec]

/-- One whose word does not decode ends with IllegalCommand (R243). -/
theorem step_of_decode_eq_error {e : DecodeError} (hp : s.pending = .command x :: rest)
    (hin : x.inp.length ≤ s.limits.inMaxBytes.toNat) (hdec : decode x.cmd = .error e) :
    step s = .next (respondError .illegalCommand (accept x rest s)) := by
  rw [step_command hp hin, runCommand, accept_cmd, hdec]

theorem portAccepts_iff (l : Limits) :
    portAccepts l x = true ↔ x.inp.length ≤ l.inMaxBytes.toNat := by
  rw [portAccepts, decide_eq_true_iff]

end

/-- Settles O8: the step takes the transaction and runs its word. -/
theorem stepRunsTheDecodedCommand : Obligations.StepRunsTheDecodedCommand :=
  fun _ _ _ _ hp hin hdec => step_of_decode_eq_ok hp hin hdec

/-- Settles O9: the port's test comes before the decoder. -/
theorem overlongInIsRefused : Obligations.OverlongInIsRefused := by
  intro s x rest hp hlong
  simp [step, hp, portAccepts, Nat.not_le.mpr hlong]

/-- Settles O14: the command's frame is that of `takes`, and a step runs a command, resets or idles. -/
theorem everyCommandCompletes : Obligations.EveryCommandCompletes := by
  refine ⟨fun i s => ?_, fun s hin => ?_⟩
  · obtain ⟨t, hexec, -⟩ := exec_cases i s
    exact ⟨t, hexec, responded_of_exec hexec, keepsPort_of_exec hexec⟩
  · cases hp : s.pending with
    | nil => exact ⟨s, by simp [step, hp]⟩
    | cons event rest =>
      cases event with
      | blockReset => exact ⟨_, step_blockReset hp⟩
      | command x =>
        cases hdec : decode x.cmd with
        | ok i =>
          obtain ⟨t, hexec, -⟩ := exec_cases i (accept x rest s)
          exact ⟨t, (step_of_decode_eq_ok hp (hin x rest hp) hdec).trans hexec⟩
        | error e => exact ⟨_, step_of_decode_eq_error hp (hin x rest hp) hdec⟩

/-- Settles O10: a command reads none of the pending events, and the events that wait after the first are
kept in order. -/
theorem stepsFollowIssueOrder : Obligations.StepsFollowIssueOrder := by
  intro s t es hne hstep
  rcases step_cases s t hstep with ⟨hnone, -⟩ | ⟨rest, hp, rfl⟩ | ⟨x, rest, i, hp, hport, hdec, hexec⟩ |
    ⟨x, rest, e, hp, hport, hdec, rfl⟩
  · exact absurd hnone hne
  · have hp' : (s.issue es).pending = .blockReset :: (rest ++ es) := by
      rw [State.issue_pending, hp, List.cons_append]
    exact ⟨by rw [hp]; rfl, step_blockReset hp'⟩
  · have hp' : (s.issue es).pending = .command x :: (rest ++ es) := by
      rw [State.issue_pending, hp, List.cons_append]
    have hin := (portAccepts_iff s.limits).mp hport
    obtain ⟨-, -, -, hpending, -⟩ := keepsPort_of_exec hexec
    refine ⟨by rw [hpending, hp]; rfl, ?_⟩
    rw [step_of_decode_eq_ok hp' hin hdec, exec_of_agreesOn (accept x (rest ++ es) (s.issue es))
      hexec ((accept x rest s).agreesOn_refl _) rfl (fun _ => rfl) (fun _ => rfl)]
    conv_rhs => rw [takes_of_exec hexec]
    rfl
  · have hp' : (s.issue es).pending = .command x :: (rest ++ es) := by
      rw [State.issue_pending, hp, List.cons_append]
    have hin := (portAccepts_iff s.limits).mp hport
    exact ⟨by rw [hp]; rfl, step_of_decode_eq_error hp' hin hdec⟩

/-- Settles O53: no command changes the limits, and a block reset keeps them. -/
theorem noStepChangesTheLimits : Obligations.NoStepChangesTheLimits := by
  intro s t hstep
  rcases step_cases s t hstep with ⟨-, rfl⟩ | ⟨rest, -, rfl⟩ | ⟨x, rest, i, -, -, -, hexec⟩ |
    ⟨x, rest, e, -, -, -, rfl⟩
  · rfl
  · rfl
  · obtain ⟨-, -, -, -, hlimits⟩ := keepsPort_of_exec hexec
    exact hlimits
  · rfl

end Sys2Proof.Machine

/-! Proofs about the invariant of the block (spec/10_state.md R36; spec/30_encoding.md R75) and about the
writer's mark and poison flag (R27, R28; spec/60_exceptions.md R246). -/

namespace Sys2Proof.Machine

/-! ## What a command can do to the writer -/

/-- The writer after a write of n bits of v that passes its check (R104). -/
def Writer.store (w : Writer) (n v : Nat) : Writer :=
  { w with
    buf := memWrite w.buf w.cur.toNat n v
    bw := highWater w.cur w.bw n
    cur := BitVec.ofNat 64 (w.cur.toNat + n) }

theorem writeData_store (n v : Nat) (s : State) (h : s.writeFits n) :
    writeData n v s = respond 0 [] { s with writer := s.writer.store n v } := writeData_fits n v s h

/-- What command i, run in s and ended in t, has done to the writer. -/
inductive WriterChange (i : Instr) (s t : State) : Prop
  | kept (hw : t.writer = s.writer)
  | stored (n v : Nat) (hu : unitOf i = .writer) (hn : accessBits i s = some n) (hfit : s.writeFits n)
      (hst : t.st = 0) (hw : t.writer = s.writer.store n v)
  | pinned (hu : unitOf i = .writer) (hst : t.st = 1 ∨ t.st = 2) (hw : t.writer = s.writer.pin)
  | moved (p : Word64) (hp : p.toNat ≤ s.writer.tot.toNat) (hw : t.writer = s.writer.moveTo p)
  | made (hi : i = .wNew) (hlimit : s.a.toNat + 4 ≤ s.limits.wbufMaxBytes.toNat) (hst : t.st = 0)
      (hw : t.writer = Writer.construct s.a.toNat)

theorem writerChange_of_exec {i : Instr} {s t : State} (h : exec i s = .next t) : WriterChange i s t := by
  cases execCase_of_exec h with
  | toRes n ext hu | toOut n k hu => exact .kept (writer_of_exec_reader hu h)
  | write n v hu hn =>
    by_cases hfit : s.writeFits n
    · rw [writeData_store n v s hfit]
      exact .stored n v hu hn hfit rfl rfl
    · rw [writeData_overrun n v s hfit]
      exact .pinned hu (.inl rfl) rfl
  | writeWidth w hw hi => exact .pinned (by rcases hi with rfl | rfl <;> rfl) (.inr rfl) rfl
  | newWriter hi hl => exact .made hi hl rfl rfl
  | moveWriter p hi hp => exact .moved p hp rfl
  | str | readWidth | runLength | readerLimit | newReader | writerLimit | moveReader | query =>
    exact .kept rfl

/-! ## The invariant -/

theorem Reader.ok_of_keepsBuffer {r q : Reader} {l : Limits} (h : r.keepsBuffer q) (hr : r.ok l) :
    q.ok l := by
  obtain ⟨-, hbuf, hlen, htot⟩ := h
  rwa [Reader.ok, hbuf, hlen, htot]

/-- R.LEN and R.TOT hold the length of an IN within RBUF_MAX_BYTES and its bits (R6). -/
theorem Reader.construct_size {bytes : List Byte} {l : Limits} (h : bytes.length ≤ l.rbufMaxBytes.toNat) :
    (Reader.construct bytes).len.toNat = bytes.length ∧
      (Reader.construct bytes).tot.toNat = 8 * bytes.length := by
  have hlimit := l.rbufMaxBytes.isLt
  constructor
  · rw [Reader.construct_len, BitVec.toNat_ofNat]
    exact Nat.mod_eq_of_lt (by omega)
  · rw [Reader.construct_tot, BitVec.toNat_ofNat]
    exact Nat.mod_eq_of_lt (by omega)

theorem Reader.construct_ok {bytes : List Byte} {l : Limits} (h : bytes.length ≤ l.rbufMaxBytes.toNat) :
    (Reader.construct bytes).ok l := by
  obtain ⟨hlen, htot⟩ := Reader.construct_size h
  rw [Reader.ok, hlen, htot]
  exact ⟨Memory.ofBytes_wf bytes, Memory.ofBytes_within bytes, rfl, h⟩

/-- W.CAP and W.TOT hold a capacity that WBUF_MAX_BYTES admits and its bits with the pad (R6). -/
theorem Writer.construct_size {capacity : Nat} {l : Limits} (h : capacity + 4 ≤ l.wbufMaxBytes.toNat) :
    (Writer.construct capacity).cap.toNat = capacity ∧
      (Writer.construct capacity).tot.toNat = 8 * capacity + 32 := by
  have hlimit := l.wbufMaxBytes.isLt
  constructor
  · rw [Writer.construct_cap, BitVec.toNat_ofNat]
    exact Nat.mod_eq_of_lt (by omega)
  · rw [Writer.construct_tot, BitVec.toNat_ofNat]
    exact Nat.mod_eq_of_lt (by omega)

theorem Writer.construct_ok {capacity : Nat} {l : Limits} (h : capacity + 4 ≤ l.wbufMaxBytes.toNat) :
    (Writer.construct capacity).ok l := by
  obtain ⟨hcap, htot⟩ := Writer.construct_size h
  rw [Writer.ok, hcap, htot]
  exact ⟨rfl, rfl, rfl, h, Nat.zero_le _, Nat.zero_le _, fun hpoison => absurd hpoison Bool.false_ne_true⟩

theorem Writer.pin_ok {w : Writer} {l : Limits} (h : w.ok l) : w.pin.ok l := by
  obtain ⟨hwf, hwithin, htot, hlimit, -⟩ := h
  exact ⟨hwf, hwithin, htot, hlimit, le_rfl, le_rfl, fun _ => ⟨rfl, rfl⟩⟩

theorem Writer.moveTo_ok {w : Writer} {l : Limits} {p : Word64} (hp : p.toNat ≤ w.tot.toNat)
    (h : w.ok l) : (w.moveTo p).ok l := by
  unfold Writer.moveTo
  split
  · exact h
  · next hpoison =>
    obtain ⟨hwf, hwithin, htot, hlimit, -, hbw, -⟩ := h
    exact ⟨hwf, hwithin, htot, hlimit, hp, hbw, fun hpoisoned => absurd hpoisoned hpoison⟩

/-- The mark of a write that fits stays at or below W.TOT (R107). -/
theorem highWater_le {s : State} {n : Nat} (hfit : s.writeFits n)
    (hbw : s.writer.bw.toNat ≤ s.writer.tot.toNat) :
    (highWater s.writer.cur s.writer.bw n).toNat ≤ s.writer.tot.toNat := by
  unfold highWater
  split
  · rw [writeFits_cur_toNat n s hfit]
    exact hfit.2
  · exact hbw

theorem Writer.store_ok {s : State} {n : Nat} {l : Limits} (v : Nat) (hfit : s.writeFits n)
    (h : s.writer.ok l) : (s.writer.store n v).ok l := by
  obtain ⟨hwf, hwithin, htot, hlimit, -, hbw, -⟩ := h
  obtain ⟨hpoison, hend⟩ := id hfit
  have hcur : (s.writer.store n v).cur.toNat ≤ s.writer.tot.toNat :=
    (writeFits_cur_toNat n s hfit).trans_le hend
  have hroom : s.writer.cur.toNat + n ≤ 8 * (s.writer.cap.toNat + 4) := by omega
  exact ⟨memWrite_wf _ _ _ _ hwf, memWrite_within _ _ _ _ _ hwithin hroom, htot, hlimit, hcur,
    highWater_le hfit hbw, fun hpoisoned => absurd (hpoisoned.symm.trans hpoison) Bool.noConfusion⟩

theorem respond_responseOk (res : Word64) (out : List Byte) (s : State) :
    (respond res out s).responseOk :=
  ⟨Nat.zero_le _, fun _ => rfl, fun h => absurd rfl h⟩

theorem respondError_responseOk (e : ErrorKind) (s : State) : (respondError e s).responseOk := by
  refine ⟨?_, fun hst => ?_, fun _ => ⟨rfl, rfl⟩⟩
  · rw [respondError_st]
    cases e <;> simp [statusCode]
  · cases e with
    | outOfBounds => exact absurd rfl hst
    | unsupportedWidth | illegalCommand | resourceLimit => rfl

/-- Every command keeps the invariant: it keeps or makes a reader that is ok, the same of the writer, and it
answers. -/
theorem exec_keeps_inv {i : Instr} {s t : State} (h : exec i s = .next t) (hinv : s.Inv) : t.Inv := by
  obtain ⟨hreader, hwriter, -⟩ := hinv
  obtain ⟨-, -, -, -, hlimits⟩ := keepsPort_of_exec h
  rw [State.Inv, hlimits]
  refine ⟨?_, ?_, ?_⟩
  · by_cases hi : i = .rNew
    · subst hi
      by_cases hfit : s.inp.length ≤ s.limits.rbufMaxBytes.toNat
      · cases (exec_rNew_fits s hfit).symm.trans h
        exact Reader.construct_ok hfit
      · cases (exec_rNew_exceeds (Nat.not_le.mp hfit)).symm.trans h
        exact hreader
    · exact Reader.ok_of_keepsBuffer (exec_keepsBuffer h hi) hreader
  · cases writerChange_of_exec h with
    | kept hw => exact hw ▸ hwriter
    | stored n v _ _ hfit _ hw => exact hw ▸ Writer.store_ok v hfit hwriter
    | pinned _ _ hw => exact hw ▸ Writer.pin_ok hwriter
    | moved p hp hw => exact hw ▸ Writer.moveTo_ok hp hwriter
    | made _ hlimit _ hw => exact hw ▸ Writer.construct_ok hlimit
  · rcases exec_responds h with ⟨res, out, q, rfl⟩ | ⟨e, q, rfl⟩
    · exact respond_responseOk res out q
    · exact respondError_responseOk e q

theorem Reader.empty_ok (l : Limits) : Reader.empty.ok l := ⟨rfl, rfl, rfl, Nat.zero_le _⟩

theorem Writer.empty_ok {l : Limits} (h : 4 ≤ l.wbufMaxBytes.toNat) : Writer.empty.ok l :=
  Writer.construct_ok h

theorem resetWith_responseOk (l : Limits) : (State.resetWith l).responseOk :=
  ⟨Nat.zero_le _, fun _ => rfl, fun h => absurd rfl h⟩

theorem resetWith_inv {l : Limits} (h : 4 ≤ l.wbufMaxBytes.toNat) : (State.resetWith l).Inv :=
  ⟨Reader.empty_ok l, Writer.empty_ok h, resetWith_responseOk l⟩

theorem step_keeps_inv {s t : State} (hinv : s.Inv) (hstep : step s = .next t) : t.Inv := by
  rcases step_cases s t hstep with ⟨-, rfl⟩ | ⟨rest, -, rfl⟩ | ⟨x, rest, i, -, -, -, hexec⟩ |
    ⟨x, rest, e, -, -, -, rfl⟩
  · exact hinv
  · obtain ⟨-, ⟨-, -, -, hlimit, -⟩, -⟩ := hinv
    exact resetWith_inv (Nat.le_of_add_left_le hlimit)
  · have haccepted : (accept x rest s).Inv := hinv
    exact exec_keeps_inv hexec haccepted
  · obtain ⟨hreader, hwriter, -⟩ := hinv
    exact ⟨hreader, hwriter, respondError_responseOk _ _⟩

/-- Settles O12, by what one step can do. -/
theorem everyStepKeepsTheInvariant : Obligations.EveryStepKeepsTheInvariant :=
  ⟨fun _ _ => step_keeps_inv, fun _ => resetWith_inv⟩

/-- Settles O13: both units are the ones that empty constructions make, and no register holds a failure. -/
theorem resetStateHasTheInvariant : Obligations.ResetStateHasTheInvariant :=
  fun _ h => ⟨resetWith_inv h, rfl, rfl, rfl⟩

/-! ## The poisoned writer -/

/-- A poisoned writer of the invariant is pinned already (R36). -/
theorem Writer.pin_of_poison {w : Writer} {l : Limits} (h : w.ok l) (hpoison : w.poison = true) :
    w.pin = w := by
  obtain ⟨-, -, -, -, -, -, hpinned⟩ := h
  obtain ⟨hcur, hbw⟩ := hpinned hpoison
  cases w
  simp_all [Writer.pin]

theorem Writer.moveTo_of_poison {w : Writer} (p : Word64) (hpoison : w.poison = true) :
    w.moveTo p = w := if_pos hpoison

/-- No command but W.NEW changes a poisoned writer: a write fails and pins what is pinned, and a cursor move
has no effect (R105, R203, R205, R246). -/
theorem exec_keeps_poisoned_writer {i : Instr} {s t : State} (h : exec i s = .next t)
    (hok : s.writer.ok s.limits) (hpoison : s.writer.poison = true) (hi : i ≠ .wNew) :
    t.writer = s.writer := by
  cases writerChange_of_exec h with
  | kept hw => exact hw
  | stored n v _ _ hfit => exact absurd (hpoison.symm.trans hfit.1) Bool.noConfusion
  | pinned _ _ hw => exact hw.trans (Writer.pin_of_poison hok hpoison)
  | moved p _ hw => exact hw.trans (Writer.moveTo_of_poison p hpoison)
  | made hnew => exact absurd hnew hi

/-- An event after which a poisoned writer is as it was: neither a block reset nor a W.NEW. -/
def HostEvent.keepsPoison (e : HostEvent) : Prop :=
  e ≠ .blockReset ∧ ∀ x, e = .command x → decode x.cmd ≠ .ok .wNew

theorem step_keeps_poisoned_writer {s t : State} (hstep : step s = .next t) (hinv : s.Inv)
    (hpoison : s.writer.poison = true) (hevents : ∀ e, e ∈ s.pending → e.keepsPoison) :
    t.writer = s.writer ∧ ∀ e, e ∈ t.pending → e ∈ s.pending := by
  obtain ⟨-, hwriter, -⟩ := hinv
  rcases step_cases s t hstep with ⟨-, rfl⟩ | ⟨rest, hp, -⟩ | ⟨x, rest, i, hp, -, hdec, hexec⟩ |
    ⟨x, rest, e, hp, -, -, rfl⟩
  · exact ⟨rfl, fun _ he => he⟩
  · exact absurd rfl (hevents .blockReset (by simp [hp])).1
  · have hi : i ≠ .wNew := by
      rintro rfl
      exact (hevents (.command x) (by simp [hp])).2 x rfl hdec
    obtain ⟨-, -, -, hpending, -⟩ := keepsPort_of_exec hexec
    have hrest : ∀ e, e ∈ t.pending → e ∈ s.pending := fun e he => by
      rw [hpending] at he
      rw [hp]
      exact List.mem_cons_of_mem _ he
    have hkept : t.writer = (accept x rest s).writer :=
      exec_keeps_poisoned_writer hexec hwriter hpoison hi
    exact ⟨hkept, hrest⟩
  · exact ⟨rfl, fun e he => by rw [hp]; exact List.mem_cons_of_mem _ he⟩

/-- Settles O38, by induction on the number of steps: each keeps the invariant, the poisoned writer and the
kind of the events that wait. -/
theorem poisonedWriterIsFrozen : Obligations.PoisonedWriterIsFrozen := by
  intro k
  induction k with
  | zero =>
    intro s t _ _ _ hrun
    exact congrArg State.writer hrun
  | succ k ih =>
    intro s t hinv hpoison hevents hrun
    obtain ⟨q, hstep, hrest⟩ := hrun
    obtain ⟨hw, hpending⟩ := step_keeps_poisoned_writer hstep hinv hpoison hevents
    exact (ih q t (step_keeps_inv hinv hstep) (hw ▸ hpoison) (fun e he => hevents e (hpending e he))
      hrest).trans hw

/-- Settles O34, by what the command has done to the writer. -/
theorem onlyThreeThingsMoveTheHighWaterMark : Obligations.OnlyThreeThingsMoveTheHighWaterMark := by
  intro i s t hexec hmoved
  cases writerChange_of_exec hexec with
  | kept hw => exact absurd (congrArg Writer.bw hw) hmoved
  | stored n v hu hn _ hst hw =>
    rw [hw] at hmoved ⊢
    have hat : s.writer.cur = s.writer.bw := by
      by_contra hoff
      exact hmoved (if_neg hoff)
    exact .inl ⟨hu, hst, hat, if_pos hat, n, hn⟩
  | pinned hu hst hw => exact .inr (.inl ⟨hu, hst, congrArg Writer.bw hw⟩)
  | moved p _ hw => exact absurd ((congrArg Writer.bw hw).trans (Writer.moveTo_bw _ p)) hmoved
  | made hi _ hst hw => exact .inr (.inr ⟨hi, hst, congrArg Writer.bw hw⟩)

/-- Settles O39: a poisoned writer's mark is at W.TOT, so that the committed bytes are all of W.BUF. -/
theorem failedWriterReportsItsWholeStorage : Obligations.FailedWriterReportsItsWholeStorage := by
  intro s hinv hpoison
  obtain ⟨-, ⟨-, -, htot, -, -, -, hpinned⟩, -⟩ := hinv
  obtain ⟨-, hbw⟩ := hpinned hpoison
  have hbytes : ceil8 s.writer.bw.toNat = s.writer.cap.toNat + 4 := by
    rw [hbw, htot, ← ceil8_mul (s.writer.cap.toNat + 4)]
    rfl
  refine ⟨⟨_, rfl, rfl, ?_⟩, ⟨_, rfl, rfl, hbw⟩, ⟨_, rfl, rfl, ?_, fun k hk => ?_⟩⟩
  · have hcap := s.writer.cap.isLt
    rw [respond_res, hbytes, BitVec.toNat_ofNat]
    exact Nat.mod_eq_of_lt (by omega)
  · rw [respond_out, Memory.bytes_length, hbytes]
  · rw [respond_out, Memory.bytes_getD _ _ _ _ (hbytes ▸ hk), Nat.zero_add]

end Sys2Proof.Machine

/-! Proofs about the read and write commands of spec/40_codec.md section 4 and spec/41_typed_access.md: what
each returns or stores, bit by bit, where its field fits. -/

namespace Sys2Proof.Machine

/-! ## Sized reads -/

/-- A read to RES that fits answers, moves R.CUR by the width and changes nothing else (R100). -/
theorem readRes_answers (n : Nat) (ext : Nat → Word64) (s : State) (h : s.readFits n) :
    (readRes n ext s).answers 0 0 (readRes n ext s).res [] ∧
      (readRes n ext s).reader.cur.toNat = s.reader.cur.toNat + n ∧
      s.readerFrame (readRes n ext s) := by
  rw [readRes_fits n ext s h]
  exact ⟨⟨rfl, rfl, rfl, rfl, rfl⟩, readFits_cur_toNat n s h, respond_readerCur_frame _ _ _ _⟩

theorem readRes_res (n : Nat) (ext : Nat → Word64) (s : State) (h : s.readFits n) :
    (readRes n ext s).res = ext (memRead s.reader.buf s.reader.cur.toNat n) := by
  rw [readRes_fits n ext s h, respond_res]

theorem zext64_memRead_getLsbD (m : Memory) (pos j : Nat) {n : Nat} (hn : n ≤ 64) :
    (zext64 (memRead m pos n)).getLsbD j = (decide (j < n) && m.bit (pos + j)) := by
  rw [zext64_getLsbD, memRead_testBit]
  by_cases hj : j < n
  · rw [decide_eq_true (show j < 64 by omega), Bool.true_and]
  · rw [decide_eq_false hj, Bool.false_and, Bool.and_false]

theorem sext64_memRead_getLsbD (m : Memory) (pos : Nat) {n j : Nat} (hn : 1 ≤ n) (hj : j < 64) :
    (sext64 n (memRead m pos n)).getLsbD j = m.bit (pos + if j < n then j else n - 1) := by
  rw [sext64_getLsbD n _ j hn hj, memRead_testBit, decide_eq_true (by omega), Bool.true_and]
  congr 2
  split <;> omega

theorem supportedWidth_of_le {n : Nat} (hn : 1 ≤ n) (hmax : n ≤ 64) : supportedWidth n = true :=
  decide_eq_true ⟨hn, hmax⟩

/-- R.RDBITS and R.RDSBITS with a width that one primitive command accepts (R111, R112). -/
theorem exec_rRdbits {n : Nat} (hn : 1 ≤ n) (hmax : n ≤ 64) (s : State) :
    exec (.rRdbits n) s = .next (readRes n zext64 s) :=
  congrArg Host.Outcome.next (if_pos (supportedWidth_of_le hn hmax))

theorem exec_rRdsbits {n : Nat} (hn : 1 ≤ n) (hmax : n ≤ 64) (s : State) :
    exec (.rRdsbits n) s = .next (readRes n (sext64 n) s) :=
  congrArg Host.Outcome.next (if_pos (supportedWidth_of_le hn hmax))

/-- The unsigned and float reads of n bits (R111, R140 to R143, R148, R149). -/
theorem exec_unsignedRead {i : Instr} {n : Nat}
    (hi : (i, n) ∈ [(Instr.rRdu8, 8), (.rRdu16, 16), (.rRdu32, 32), (.rRdu64, 64), (.rRdf32, 32),
      (.rRdf64, 64)] ∨ (i = .rRdbits n ∧ 1 ≤ n ∧ n ≤ 64)) (s : State) :
    n ≤ 64 ∧ exec i s = .next (readRes n zext64 s) := by
  rcases hi with hfixed | ⟨rfl, hn, hmax⟩
  · simp only [List.mem_cons, Prod.mk.injEq, List.not_mem_nil, or_false] at hfixed
    rcases hfixed with ⟨rfl, rfl⟩ | ⟨rfl, rfl⟩ | ⟨rfl, rfl⟩ | ⟨rfl, rfl⟩ | ⟨rfl, rfl⟩ | ⟨rfl, rfl⟩ <;>
      exact ⟨by norm_num, rfl⟩
  · exact ⟨hmax, exec_rRdbits hn hmax s⟩

/-- The signed reads of n bits (R112, R144 to R147). -/
theorem exec_signedRead {i : Instr} {n : Nat}
    (hi : (i, n) ∈ [(Instr.rRdi8, 8), (.rRdi16, 16), (.rRdi32, 32), (.rRdi64, 64)] ∨
      (i = .rRdsbits n ∧ 1 ≤ n ∧ n ≤ 64)) (s : State) :
    1 ≤ n ∧ exec i s = .next (readRes n (sext64 n) s) := by
  rcases hi with hfixed | ⟨rfl, hn, hmax⟩
  · simp only [List.mem_cons, Prod.mk.injEq, List.not_mem_nil, or_false] at hfixed
    rcases hfixed with ⟨rfl, rfl⟩ | ⟨rfl, rfl⟩ | ⟨rfl, rfl⟩ | ⟨rfl, rfl⟩ <;> exact ⟨by norm_num, rfl⟩
  · exact ⟨hn, exec_rRdsbits hn hmax s⟩

/-- Settles O19: each of the commands is one read of n bits, zero-extended. -/
theorem unsignedReadsReturnTheField : Obligations.UnsignedReadsReturnTheField := by
  intro s i n hi hfits
  obtain ⟨hmax, hexec⟩ := exec_unsignedRead hi s
  obtain ⟨hanswers, hcur, hframe⟩ := readRes_answers n zext64 s hfits
  refine ⟨_, hexec, hanswers, fun j => ?_, hcur, hframe⟩
  rw [readRes_res n zext64 s hfits, zext64_memRead_getLsbD _ _ _ hmax]

/-- Settles O20: each of the commands is one read of n bits, sign-extended. -/
theorem signedReadsReturnTheExtendedField : Obligations.SignedReadsReturnTheExtendedField := by
  intro s i n hi hfits
  obtain ⟨hn, hexec⟩ := exec_signedRead hi s
  obtain ⟨hanswers, hcur, hframe⟩ := readRes_answers n (sext64 n) s hfits
  refine ⟨_, hexec, hanswers, fun j hj => ?_, hcur, hframe⟩
  rw [readRes_res n (sext64 n) s hfits, sext64_memRead_getLsbD _ _ hn hj]

/-! ## Runs to OUT -/

/-- A read to OUT that fits answers, moves R.CUR by the width and changes nothing else (R150, R151). -/
theorem readOut_answers (n k : Nat) (s : State) (h : s.readFits n) :
    (readOut n k s).answers 0 0 0 (readOut n k s).out ∧
      (readOut n k s).reader.cur.toNat = s.reader.cur.toNat + n ∧ s.readerFrame (readOut n k s) := by
  rw [readOut_fits n k s h]
  exact ⟨⟨rfl, rfl, rfl, rfl, rfl⟩, readFits_cur_toNat n s h, respond_readerCur_frame _ _ _ _⟩

theorem readOut_out (n k : Nat) (s : State) (h : s.readFits n) :
    (readOut n k s).out = leBytes k (memRead s.reader.buf s.reader.cur.toNat n) := by
  rw [readOut_fits n k s h, respond_out]

/-- Bit 8p + j of the bytes of a field is that bit of the field, and 0 above its width. -/
theorem leBytes_memRead_bit (m : Memory) (pos n : Nat) {k p j : Nat} (hp : p < k) (hj : j < 8) :
    ((leBytes k (memRead m pos n)).getD p 0).getLsbD j =
      (decide (8 * p + j < n) && m.bit (pos + (8 * p + j))) := by
  rw [leBytes_bit k _ p j hp hj, memRead_testBit]

theorem exec_rRdbytes (s : State) :
    exec .rRdbytes s = .next (readOut (8 * s.a.toNat) s.a.toNat s) := rfl

theorem exec_rRdrun (s : State) :
    exec .rRdrun s = .next (readOut s.a.toNat (ceil8 s.a.toNat) s) := rfl

/-- Settles O22: R.RDBYTES is one read of 8A bits into A bytes. -/
theorem byteRunReadReturnsItsBytes : Obligations.ByteRunReadReturnsItsBytes := by
  intro s hfits
  obtain ⟨hanswers, hcur, hframe⟩ := readOut_answers (8 * s.a.toNat) s.a.toNat s hfits
  have hout := readOut_out (8 * s.a.toNat) s.a.toNat s hfits
  refine ⟨_, exec_rRdbytes s, hanswers, ?_, fun k j hk hj => ?_, hcur, hframe⟩
  · rw [hout, leBytes_length]
  · rw [hout, leBytes_memRead_bit _ _ _ hk hj, decide_eq_true (by omega), Bool.true_and, Nat.add_assoc]

theorem mul_ceil8_lt (n : Nat) : 8 * ceil8 n < n + 8 := by
  unfold ceil8
  omega

/-- Settles O23: R.RDRUN is one read of A bits into the least number of bytes that holds them. -/
theorem bitRunReadReturnsItsBits : Obligations.BitRunReadReturnsItsBits := by
  intro s hfits
  obtain ⟨hanswers, hcur, hframe⟩ := readOut_answers s.a.toNat (ceil8 s.a.toNat) s hfits
  have hout := readOut_out s.a.toNat (ceil8 s.a.toNat) s hfits
  refine ⟨_, exec_rRdrun s, hanswers, ?_, ?_, fun k j hk hj => ?_, hcur, hframe⟩
  · rw [hout, leBytes_length]
    exact mul_ceil8_lt s.a.toNat
  · rw [hout, leBytes_length]
    exact le_ceil8 s.a.toNat
  · rw [hout, leBytes_length] at hk
    rw [hout, leBytes_memRead_bit _ _ _ hk hj]

/-! ## Writes -/

/-- A store of n bits leaves the writer that `wrote` describes (R104, R107). -/
theorem Writer.wrote_store {s : State} {n v : Nat} {f : Nat → Bool} (hwf : s.writer.buf.wf = true)
    (hfits : s.writeFits n) (hv : ∀ k, k < n → v.testBit k = f k) :
    s.writer.wrote (s.writer.store n v) n f := by
  have hbit := fun j => memWrite_bit s.writer.buf s.writer.cur.toNat n v j hwf
  have hcur := writeFits_cur_toNat n s hfits
  refine ⟨⟨fun i hi => ?_, fun j hj => ?_, fun a ha => memWrite_read_other _ _ _ _ a ha⟩, hcur, ?_,
    hfits.1⟩
  · exact (hbit _).trans (by rw [if_pos (by omega), Nat.add_sub_cancel_left, hv i hi])
  · exact (hbit j).trans (if_neg (by omega))
  · calc (highWater s.writer.cur s.writer.bw n).toNat
        = if s.writer.cur = s.writer.bw then (BitVec.ofNat 64 (s.writer.cur.toNat + n)).toNat
          else s.writer.bw.toNat := apply_ite BitVec.toNat _ _ _
      _ = _ := by rw [hcur]

/-- A write of n bits that fits answers ST = 0, stores the low n bits of its value and changes nothing
else. -/
theorem writeData_wrote {s : State} {n v : Nat} {f : Nat → Bool} (hwf : s.writer.buf.wf = true)
    (hfits : s.writeFits n) (hv : ∀ k, k < n → v.testBit k = f k) :
    (writeData n v s).answers 0 0 0 [] ∧ s.writer.wrote (writeData n v s).writer n f ∧
      s.writerFrame (writeData n v s) := by
  rw [writeData_store n v s hfits]
  exact ⟨⟨rfl, rfl, rfl, rfl, rfl⟩, Writer.wrote_store hwf hfits hv, ⟨rfl, rfl⟩, rfl, rfl, rfl, rfl, rfl,
    rfl⟩

theorem valueA_testBit {n k : Nat} (s : State) (hk : k < n) :
    (valueA n s).testBit k = s.a.getLsbD k := by
  rw [valueA, Nat.testBit_mod_two_pow, decide_eq_true hk, Bool.true_and, BitVec.getLsbD]

/-- Re-normalisation does not change the bits that a signed write stores (R109). -/
theorem signedValueA_testBit {n k : Nat} (s : State) (hmax : n ≤ 64) (hk : k < n) :
    (signedValueA n s).testBit k = s.a.getLsbD k := by
  obtain ⟨hlow, -⟩ := signNormKeepsTheLowBits s.a n (by omega) hmax
  rw [signedValueA, Nat.testBit_mod_two_pow, decide_eq_true hk, Bool.true_and, ← hlow k hk,
    BitVec.getLsbD]

theorem exec_wWrbits {n : Nat} (hn : 1 ≤ n) (hmax : n ≤ 64) (s : State) :
    exec (.wWrbits n) s = .next (writeData n (valueA n s) s) :=
  congrArg Host.Outcome.next (if_pos (supportedWidth_of_le hn hmax))

theorem exec_wWrsbits {n : Nat} (hn : 1 ≤ n) (hmax : n ≤ 64) (s : State) :
    exec (.wWrsbits n) s = .next (writeData n (signedValueA n s) s) :=
  congrArg Host.Outcome.next (if_pos (supportedWidth_of_le hn hmax))

/-- Every sized write is one write of n bits whose value has the low n bits of A (R113, R114, R160 to
R169). -/
theorem exec_sizedWrite {i : Instr} {n : Nat}
    (hi : (i, n) ∈ [(Instr.wWru8, 8), (.wWru16, 16), (.wWru32, 32), (.wWru64, 64), (.wWri8, 8),
      (.wWri16, 16), (.wWri32, 32), (.wWri64, 64), (.wWrf32, 32), (.wWrf64, 64)] ∨
      ((i = .wWrbits n ∨ i = .wWrsbits n) ∧ 1 ≤ n ∧ n ≤ 64)) (s : State) :
    ∃ v, exec i s = .next (writeData n v s) ∧ ∀ k, k < n → v.testBit k = s.a.getLsbD k := by
  have hplain : ∀ k, k < n → (valueA n s).testBit k = s.a.getLsbD k := fun k => valueA_testBit s
  rcases hi with hfixed | ⟨rfl | rfl, hn, hmax⟩
  · simp only [List.mem_cons, Prod.mk.injEq, List.not_mem_nil, or_false] at hfixed
    rcases hfixed with ⟨rfl, rfl⟩ | ⟨rfl, rfl⟩ | ⟨rfl, rfl⟩ | ⟨rfl, rfl⟩ | ⟨rfl, rfl⟩ | ⟨rfl, rfl⟩ |
      ⟨rfl, rfl⟩ | ⟨rfl, rfl⟩ | ⟨rfl, rfl⟩ | ⟨rfl, rfl⟩
    case inr.inr.inr.inr.inl | inr.inr.inr.inr.inr.inl =>
      exact ⟨_, rfl, fun k => signedValueA_testBit s (by norm_num)⟩
    all_goals exact ⟨_, rfl, hplain⟩
  · exact ⟨_, exec_wWrbits hn hmax s, hplain⟩
  · exact ⟨_, exec_wWrsbits hn hmax s, fun k => signedValueA_testBit s hmax⟩

/-- Settles O27: each of the commands is one write of n bits whose value agrees with A below bit n. -/
theorem sizedWritesStoreTheLowBitsOfA : Obligations.SizedWritesStoreTheLowBitsOfA := by
  intro s i n hi hwf hfits
  obtain ⟨v, hexec, hv⟩ := exec_sizedWrite hi s
  exact ⟨_, hexec, writeData_wrote hwf hfits hv⟩

/-- Bit k of a little-endian value is bit k mod 8 of byte k div 8 (R10). -/
theorem leNat_testBit_div (bytes : List Byte) (k : Nat) :
    (leNat bytes).testBit k = (bytes.getD (k / 8) 0).getLsbD (k % 8) := by
  rw [← leNat_testBit bytes (k / 8) (k % 8) (Nat.mod_lt _ (by omega)), Nat.div_add_mod]

/-- Settles O28: W.WRBYTES is one write of the little-endian value of IN. -/
theorem byteRunWriteStoresIn : Obligations.ByteRunWriteStoresIn :=
  fun s hwf hfits => ⟨_, rfl, writeData_wrote hwf hfits fun k _ => leNat_testBit_div s.inp k⟩

theorem eq_ceil8_iff (len n : Nat) : len = ceil8 n ↔ n ≤ 8 * len ∧ 8 * len < n + 8 := by
  unfold ceil8
  omega

/-- Settles O29: the length of IN is checked before anything else, and the value written is IN cut to A
bits. -/
theorem bitRunWriteStoresInOrRejectsLength : Obligations.BitRunWriteStoresInOrRejectsLength := by
  refine fun s => ⟨fun hlength hwf hfits => ?_, fun hwrong => ?_⟩
  · have hexec : exec .wWrrun s = .next (writeData s.a.toNat (leNat s.inp % 2 ^ s.a.toNat) s) :=
      congrArg Host.Outcome.next (if_pos ((eq_ceil8_iff _ _).mpr hlength))
    refine ⟨_, hexec, writeData_wrote hwf hfits fun k hk => ?_⟩
    rw [Nat.testBit_mod_two_pow, decide_eq_true hk, Bool.true_and, leNat_testBit_div]
  · have hexec : exec .wWrrun s = .next (raise .writer .illegalCommand s) :=
      congrArg Host.Outcome.next (if_neg (mt (eq_ceil8_iff _ _).mp hwrong))
    exact ⟨_, hexec, raise_answers _ _ s, raise_onlyAnswers_of_not_poisons rfl _ s⟩

/-- The zero byte at the end adds nothing to a little-endian value. -/
theorem leNat_append_zero (bytes : List Byte) : leNat (bytes ++ [0]) = leNat bytes := by
  induction bytes with
  | nil => rfl
  | cons b bytes ih => rw [List.cons_append, leNat_cons, leNat_cons, ih]

/-- Settles O30: the value written is that of IN, below 256 ^ len(IN), and the width has eight bits more. -/
theorem stringWriteAppendsTheZeroByte : Obligations.StringWriteAppendsTheZeroByte := by
  refine fun s hwf hfits => ⟨_, rfl, writeData_wrote hwf hfits fun k _ => ?_⟩
  rw [leNat_append_zero]
  by_cases hk : k < 8 * s.inp.length
  · rw [decide_eq_true hk, Bool.true_and, leNat_testBit_div]
  · rw [decide_eq_false hk, Bool.false_and]
    exact Nat.testBit_lt_two_pow
      ((leNat_lt s.inp).trans_le (Nat.pow_le_pow_right (by omega) (Nat.not_lt.mp hk)))

/-- Settles O37: both buffers are in canonical form and have the same bits. -/
theorem writingTwiceIsWritingOnce : Obligations.WritingTwiceIsWritingOnce := by
  intro m pos n v hwf
  have honce := memWrite_wf m pos n v hwf
  refine Memory.ext_of_bit _ _ (memWrite_wf _ pos n v honce) honce fun j => ?_
  rw [memWrite_bit _ pos n v j honce, memWrite_bit m pos n v j hwf]
  split <;> rfl

end Sys2Proof.Machine

/-! Proofs about whole runs of a buffer (spec/20_memory.md R52; spec/41_typed_access.md R131): a read splits
at every position, so that the cascade and the bytes of an aligned field make up one read. -/

namespace Sys2Proof.Machine

/-- A read splits at any of its bits, the lower part first (R52). -/
theorem memRead_add (m : Memory) (pos a b : Nat) :
    memRead m pos (a + b) = memRead m pos a + 2 ^ a * memRead m (pos + a) b := by
  induction a generalizing pos with
  | zero => simp [memRead]
  | succ a ih =>
    rw [show a + 1 + b = a + b + 1 by omega, memRead, memRead, ih (pos + 1),
      show pos + 1 + a = pos + (a + 1) by omega, Nat.pow_succ]
    ring

theorem extract32_eq_memRead (m : Memory) {len pos n : Nat} (hn : n ≤ 32) (hend : pos + n ≤ 8 * len) :
    extract32 m len pos n = memRead m pos n :=
  Nat.eq_of_testBit_eq fun i => by rw [extract32_testBit m i hn hend, memRead_testBit]

/-- Consecutive chunks of at most 32 bits make up one read of them all. -/
theorem readChunks_eq_memRead (m : Memory) {len width pos count : Nat} (hw : width ≤ 32)
    (hend : pos + width * count ≤ 8 * len) :
    readChunks m len width pos count = memRead m pos (width * count) := by
  induction count generalizing pos with
  | zero => rfl
  | succ count ih =>
    rw [Nat.mul_succ] at hend
    rw [readChunks, extract32_eq_memRead m hw (by omega), ih (by omega), Nat.mul_succ,
      Nat.add_comm (width * count), memRead_add]

/-- Settles O42: the three parts of the cascade are reads, and they meet. -/
theorem byteRunCascadeIsMemRead : Obligations.ByteRunCascadeIsMemRead := by
  intro m len pos n hend
  have hsplit : n = 32 * (n / 32) + (8 * (n % 32 / 8) + n % 8) := by omega
  have hrem : (if n % 8 = 0 then 0
      else extract32 m len (pos + 32 * (n / 32) + 8 * (n % 32 / 8)) (n % 8)) =
      memRead m (pos + 32 * (n / 32) + 8 * (n % 32 / 8)) (n % 8) := by
    split
    · next hzero => rw [hzero, memRead]
    · exact extract32_eq_memRead m (by omega) (by omega)
  calc cascadeRead m len pos n
      = memRead m pos (32 * (n / 32)) + 2 ^ (32 * (n / 32)) *
          (memRead m (pos + 32 * (n / 32)) (8 * (n % 32 / 8)) + 2 ^ (8 * (n % 32 / 8)) *
            memRead m (pos + 32 * (n / 32) + 8 * (n % 32 / 8)) (n % 8)) := by
        simp only [cascadeRead]
        rw [readChunks_eq_memRead m le_rfl (by omega), readChunks_eq_memRead m (by norm_num) (by omega),
          hrem]
    _ = memRead m pos (32 * (n / 32) + (8 * (n % 32 / 8) + n % 8)) := by rw [memRead_add, memRead_add]
    _ = memRead m pos n := by rw [← hsplit]

/-- Eight bits at a byte boundary are that byte. -/
theorem memRead_byte (m : Memory) (b : Nat) : memRead m (8 * b) 8 = (m.read b).toNat := by
  refine Nat.eq_of_testBit_eq fun i => ?_
  rw [memRead_testBit]
  by_cases hi : i < 8
  · rw [decide_eq_true hi, Bool.true_and, Memory.bit_of_byte m b hi, BitVec.getLsbD]
  · rw [decide_eq_false hi, Bool.false_and]
    exact (Nat.testBit_lt_two_pow
      ((m.read b).isLt.trans_le (Nat.pow_le_pow_right (by omega) (Nat.not_lt.mp hi)))).symm

/-- Settles O43, by induction on the number of bytes. -/
theorem alignedFieldsAreLittleEndian : Obligations.AlignedFieldsAreLittleEndian := by
  intro m b k
  induction k generalizing b with
  | zero => rfl
  | succ k ih =>
    rw [Memory.bytes, leNat_cons, Nat.mul_succ, Nat.add_comm (8 * k), memRead_add, memRead_byte,
      ← Nat.mul_succ, ih]
    norm_num

end Sys2Proof.Machine

/-! Proofs about construction, cursor control and the queries (spec/42_cursor_control.md), and about a field
written by one unit and read back by the other (spec/20_memory.md section 6). -/

namespace Sys2Proof.Machine

/-! ## Construction -/

/-- The bytes of a copy of IN are IN. -/
theorem Memory.bytes_ofBytes (bytes : List Byte) :
    (Memory.ofBytes bytes).bytes 0 bytes.length = bytes := by
  refine List.ext_getElem (Memory.bytes_length _ _ _) fun k hk hk' => ?_
  rw [← List.getD_eq_getElem _ 0 hk, ← List.getD_eq_getElem _ 0 hk', Memory.bytes_getD _ _ _ _ hk',
    Nat.zero_add, Memory.ofBytes_read]

/-- Settles O45: the copy has the length and the bytes of IN. -/
theorem readerConstructionCopiesIn : Obligations.ReaderConstructionCopiesIn := by
  intro s hfit
  obtain ⟨hlen, htot⟩ := Reader.construct_size hfit
  refine ⟨_, exec_rNew_fits s hfit, ⟨rfl, rfl, rfl, rfl, rfl⟩, hlen, htot, rfl,
    Memory.ofBytes_read s.inp, rfl, ⟨rfl, rfl, rfl, rfl, rfl⟩, _, rfl, ?_⟩
  rw [respond_out, respond_reader, hlen, Reader.construct_buf, Memory.bytes_ofBytes]

/-- Settles O46: the writer is the one that `Writer.construct` makes, which has no byte listed. -/
theorem writerConstructionIsZeroed : Obligations.WriterConstructionIsZeroed := by
  intro s hfit
  obtain ⟨hcap, htot⟩ := Writer.construct_size hfit
  exact ⟨_, exec_wNew_fits s hfit, ⟨rfl, rfl, rfl, rfl, rfl⟩, hcap, htot, rfl, rfl, rfl, fun _ => rfl, rfl,
    rfl, rfl, rfl, rfl, rfl⟩

/-! ## Cursor moves -/

/-- Settles O49: both commands set R.CUR alone. -/
theorem readerSeekAndResetMoveTheCursor : Obligations.ReaderSeekAndResetMoveTheCursor :=
  fun s => ⟨⟨_, rfl, ⟨rfl, rfl, rfl, rfl, rfl⟩, rfl, respond_readerCur_frame _ _ s _⟩,
    ⟨_, rfl, ⟨rfl, rfl, rfl, rfl, rfl⟩, rfl, respond_readerCur_frame _ _ s _⟩⟩

/-- The writer's cursor is at bit `pos`, or where it was if the writer is poisoned, and the command has done
nothing else but answer (R203, R205). -/
def State.movedWriterTo (s t : State) (pos : Nat) : Prop :=
  t.answers 0 0 0 [] ∧
    t.writer.cur.toNat = (if s.writer.poison = true then s.writer.cur.toNat else pos) ∧
    t.writer.buf = s.writer.buf ∧ t.writer.bw = s.writer.bw ∧ t.writer.poison = s.writer.poison ∧
    s.writerFrame t

theorem respond_moveTo (s : State) (p : Word64) :
    s.movedWriterTo (respond 0 [] { s with writer := s.writer.moveTo p }) p.toNat := by
  refine ⟨⟨rfl, rfl, rfl, rfl, rfl⟩, ?_, Writer.moveTo_buf _ p, Writer.moveTo_bw _ p,
    Writer.moveTo_poison _ p, ⟨Writer.moveTo_cap _ p, Writer.moveTo_tot _ p⟩, rfl, rfl, rfl, rfl, rfl, rfl⟩
  rw [respond_writer, Writer.moveTo_cur, apply_ite BitVec.toNat]

/-- Settles O50: both commands are one `moveTo`, and W.SEEK's clamp fits the cursor. -/
theorem writerSeekAndResetMoveTheCursor : Obligations.WriterSeekAndResetMoveTheCursor := by
  intro s
  have hclamp : (BitVec.ofNat 64 (min (countA s) s.writer.tot.toNat)).toNat =
      min s.a.toNat s.writer.tot.toNat := by
    rw [BitVec.toNat_ofNat]
    exact Nat.mod_eq_of_lt (Nat.lt_of_le_of_lt (Nat.min_le_left _ _) s.a.isLt)
  have hseek := respond_moveTo s (BitVec.ofNat 64 (min (countA s) s.writer.tot.toNat))
  rw [hclamp] at hseek
  exact ⟨⟨_, rfl, hseek⟩, ⟨_, rfl, respond_moveTo s 0⟩⟩

/-! ## Queries -/

theorem respond_onlyAnswers (res : Word64) (out : List Byte) (s : State) :
    s.onlyAnswers (respond res out s) := ⟨rfl, rfl, rfl, rfl, rfl, rfl, rfl⟩

theorem respond_answers (res : Word64) (out : List Byte) (s : State) :
    (respond res out s).answers 0 0 res out := ⟨rfl, rfl, rfl, rfl, rfl⟩

/-- Settles O51: RES holds the number of bytes of a 64-bit mark. -/
theorem queriesReportTheCursorAndTheMark : Obligations.QueriesReportTheCursorAndTheMark := by
  intro s
  have hmark := s.writer.bw.isLt
  have hlt := mul_ceil8_lt s.writer.bw.toNat
  have hres : (BitVec.ofNat 64 (ceil8 s.writer.bw.toNat)).toNat = ceil8 s.writer.bw.toNat := by
    rw [BitVec.toNat_ofNat]
    exact Nat.mod_eq_of_lt (by omega)
  refine ⟨⟨_, rfl, respond_answers _ _ s, respond_onlyAnswers _ _ s⟩,
    ⟨_, rfl, respond_answers _ _ s, respond_onlyAnswers _ _ s⟩,
    ⟨_, rfl, respond_answers _ _ s, ?_, ?_, respond_onlyAnswers _ _ s⟩⟩
  · rw [respond_res, hres]
    exact le_ceil8 _
  · rwa [respond_res, hres]

/-- Settles O52: OUT is `Memory.bytes` from byte 0 on. -/
theorem dataQueriesReturnTheBytes : Obligations.DataQueriesReturnTheBytes := by
  intro s
  refine ⟨⟨_, rfl, respond_answers _ _ s, ?_, fun k hk => ?_, respond_onlyAnswers _ _ s⟩,
    ⟨_, rfl, respond_answers _ _ s, ?_, ?_, fun k hk => ?_, respond_onlyAnswers _ _ s⟩⟩
  · exact Memory.bytes_length _ _ _
  · rw [respond_out, Memory.bytes_getD _ _ _ _ hk, Nat.zero_add]
  · rw [respond_out, Memory.bytes_length]
    exact le_ceil8 _
  · rw [respond_out, Memory.bytes_length]
    exact mul_ceil8_lt _
  · rw [respond_out, Memory.bytes_length] at hk
    rw [respond_out, Memory.bytes_getD _ _ _ _ hk, Nat.zero_add]

/-! ## A field written and read back -/

/-- The bytes that W.DATA returns: those that hold a bit below the mark (R210). -/
def Writer.committed (w : Writer) : List Byte := w.buf.bytes 0 (ceil8 w.bw.toNat)

theorem exec_wData (s : State) : exec .wData s = .next (respond 0 s.writer.committed s) := rfl

theorem Writer.committed_length (w : Writer) : w.committed.length = ceil8 w.bw.toNat :=
  Memory.bytes_length _ _ _

/-- A reader over the committed bytes of a writer has every committed bit of it (R200, R210). -/
theorem construct_committed_bit (w : Writer) {j : Nat} (hj : j < w.bw.toNat) :
    (Reader.construct w.committed).buf.bit j = w.buf.bit j := by
  have hbyte : j / 8 < ceil8 w.bw.toNat := by
    have := le_ceil8 w.bw.toNat
    omega
  rw [Reader.construct_buf, Memory.bit, Memory.ofBytes_read, Writer.committed,
    Memory.bytes_getD _ _ _ _ hbyte, Nat.zero_add, Memory.bit]

section
variable {s : State} {n : Nat}

/-- The mark of a write at W.CUR = W.BW is the end of its field (R107). -/
theorem store_bw_toNat (v : Nat) (hfits : s.writeFits n) (hat : s.writer.cur = s.writer.bw) :
    (s.writer.store n v).bw.toNat = s.writer.cur.toNat + n := by
  rw [Writer.store, highWater, if_pos hat, writeFits_cur_toNat n s hfits]

/-- A reader over the bytes committed by such a write has the written field at the write's position. -/
theorem memRead_construct_store {v : Nat} (hwf : s.writer.buf.wf = true) (hfits : s.writeFits n)
    (hat : s.writer.cur = s.writer.bw) (hv : v < 2 ^ n) :
    memRead (Reader.construct (s.writer.store n v).committed).buf s.writer.cur.toNat n = v := by
  have hbw := store_bw_toNat v hfits hat
  refine Nat.eq_of_testBit_eq fun i => ?_
  rw [memRead_testBit]
  by_cases hi : i < n
  · have hstored := memWrite_bit s.writer.buf s.writer.cur.toNat n v (s.writer.cur.toNat + i) hwf
    rw [if_pos (by omega), Nat.add_sub_cancel_left] at hstored
    rw [decide_eq_true hi, Bool.true_and, construct_committed_bit _ (by omega)]
    exact hstored
  · rw [decide_eq_false hi, Bool.false_and]
    exact (Nat.testBit_lt_two_pow
      (hv.trans_le (Nat.pow_le_pow_right (by omega) (Nat.not_lt.mp hi)))).symm

/-- The committed bytes of such a write fit a reader that has room for its bits. -/
theorem committed_store_length_le (v : Nat) {limit : Nat} (hfits : s.writeFits n)
    (hat : s.writer.cur = s.writer.bw) (hlimit : s.writer.cur.toNat + n ≤ 8 * limit) :
    (s.writer.store n v).committed.length ≤ limit := by
  rw [Writer.committed_length, store_bw_toNat v hfits hat]
  exact (ceil8_le_iff _ _).mpr hlimit

/-- A read of n bits at the write's position, by a reader over the committed bytes, returns the value. -/
theorem readRes_construct_store {v : Nat} (u : State) (ext : Nat → Word64)
    (hwf : s.writer.buf.wf = true) (hfits : s.writeFits n) (hat : s.writer.cur = s.writer.bw)
    (hv : v < 2 ^ n) (hlimit : s.writer.cur.toNat + n ≤ 8 * s.limits.rbufMaxBytes.toNat)
    (hu : u.reader = { Reader.construct (s.writer.store n v).committed with cur := s.writer.cur }) :
    (readRes n ext u).st = 0 ∧ (readRes n ext u).res = ext v := by
  obtain ⟨-, htot⟩ := Reader.construct_size (committed_store_length_le v hfits hat hlimit)
  rw [Writer.committed_length, store_bw_toNat v hfits hat] at htot
  have hfield : u.readFits n := by
    rw [State.readFits, hu]
    exact (le_ceil8 _).trans_eq htot.symm
  obtain ⟨⟨hst, -⟩, -⟩ := readRes_answers n ext u hfield
  exact ⟨hst, by rw [readRes_res n ext u hfield, hu, memRead_construct_store hwf hfits hat hv]⟩

end

theorem valueA_lt (n : Nat) (s : State) : valueA n s < 2 ^ n := Nat.mod_lt _ (Nat.two_pow_pos n)

/-- Settles O44: the write's mark is the end of its field, so that W.DATA returns every bit of it. -/
theorem writtenFieldReadsBack : Obligations.WrittenFieldReadsBack := by
  intro s n hinv hn hmax hfits hat hlimit
  obtain ⟨-, ⟨hwf, -⟩, -⟩ := hinv
  have hback := fun u ext => readRes_construct_store u ext hwf hfits hat (valueA_lt n s) hlimit
  have hwrite : exec (.wWrbits n) s =
      .next (respond 0 [] { s with writer := s.writer.store n (valueA n s) }) := by
    rw [exec_wWrbits hn hmax, writeData_store _ _ s hfits]
  refine ⟨_, _, _, _, _, hwrite, exec_wData _,
    exec_rNew_fits _ (committed_store_length_le _ hfits hat hlimit), rfl, exec_rRdbits hn hmax _,
    (hback _ zext64 rfl).1, ?_, exec_rRdsbits hn hmax _, (hback _ (sext64 n) rfl).1, fun j hj => ?_⟩
  · rw [(hback _ zext64 rfl).2, zext64, BitVec.toNat_ofNat]
    exact Nat.mod_eq_of_lt ((valueA_lt n s).trans_le (Nat.pow_le_pow_right (by omega) hmax))
  · rw [(hback _ (sext64 n) rfl).2, sext64_getLsbD n _ j hn hj, valueA_testBit s (by omega)]
    congr 1
    split <;> omega

end Sys2Proof.Machine
